-- ==== Sys2Proof/Word.lean ====
section
/-! DEFINITION. The words of bit_mixer_hash, the values that travel on its two ports, and operands as they are written. -/

namespace Sys2Proof

/-- A `bits32` word: every operand and the raw noise value (R5, R7). -/
abbrev Word := BitVec 32

/-- The 64-bit result of a response (R28). -/
abbrev Data := BitVec 64

/-- A byte of a packed request or response (R53). -/
abbrev Byte := BitVec 8

/-- The float format a float form answers in, chosen by `PREC = cmd[6]` (R71). -/
inductive Prec where
  | binary64
  | binary32
deriving DecidableEq, Repr

/-- The three readings of the neg-one-to-one formula, values of the parameter `NEG_MAP` (R5, R161). -/
inductive NegMap where
  | folded
  | literal
  | signed
deriving DecidableEq, Repr

/-- A request: the six fields of the request port (R27, R70). -/
structure Request where
  cmd  : BitVec 8
  x    : Word
  y    : Word
  z    : Word
  t    : Word
  seed : Word
deriving DecidableEq, Repr, Inhabited

/-- A response: the two fields of the response port (R28, R76). -/
structure Response where
  data : Data
  err  : BitVec 1
deriving DecidableEq, Repr, Inhabited

/-- What stands at the `req_*` fields: a request, or `none` for an unknown value somewhere in them (R202). -/
abbrev Offer := Option Request

/-- The levels at the block's inputs at one rising edge of `clk` (R27, R28, R29).
`none` is an unknown level (R202). -/
structure Pins where
  rst      : Bool
  reqValid : Option Bool
  req      : Offer
  rspReady : Option Bool
deriving DecidableEq, Repr, Inhabited

/-- An operand as it is written (R78): a decimal integer, or `0x` and hexadecimal digits, high to low. -/
inductive Literal where
  | dec (n : Int)
  | hex (digits : List (Fin 16))
deriving DecidableEq, Repr

/-- A written command (R78): its mnemonic with its suffix, or an alias of R79, and its operands in order. -/
structure Written where
  name     : String
  operands : List Literal
deriving DecidableEq, Repr

end Sys2Proof
end

