-- ==== Sys2Proof/Config.lean ====
section
/-! DEFINITION. What one realisation of the block fixes (the parameters of R5) and the free values the spec leaves open. -/

namespace Sys2Proof

/-- The named parameters of R5, which a model takes as arguments. -/
structure Params where
  latency     : Nat
  maxInflight : Nat
  negMap      : NegMap
deriving DecidableEq, Repr

namespace Config

/-- `LATENCY - 1` of the realisation: open (R5, D14); DESIGN CHOICE, log entry 1. -/
opaque extraLatency : Nat

/-- `MAX_INFLIGHT - 1` of the realisation: open (R5, D14); DESIGN CHOICE, log entry 1. -/
opaque extraInflight : Nat

/-- The realisation's parameters: `LATENCY` and `MAX_INFLIGHT` open integers of at least 1, `NEG_MAP` the default
`FOLDED` (R5, D8; DESIGN CHOICE, log entry 2). -/
def params : Params :=
  { latency := extraLatency + 1, maxInflight := extraInflight + 1, negMap := .folded }

/-- `rsp_data` in a cycle with `rsp_valid = 0`: any value (R28, R37, D25); log entry 4. -/
opaque freeRspData : Nat → BitVec 64

/-- `rsp_err` in a cycle with `rsp_valid = 0`: any value (R28, R37, D25); log entry 4. -/
opaque freeRspErr : Nat → BitVec 1

/-- What the requester drives at an edge for which `State.pins` lists nothing: anything; log entry 3. -/
opaque freePins : Nat → Pins

end Config

end Sys2Proof
end

