-- ==== Sys2Proof/Syntax.lean ====
section
/-! DEFINITION. The eighteen commands of rule R73, one constructor per row of spec/opcode_table.json. -/

namespace Sys2Proof

/-- A legal command with the operands it reads (R72, R73). The fields it does not read are ignored and are no part
of it; a float form carries the format its `PREC` bit names. -/
inductive Instr where
  /-- `noise.raw.1d x, seed` (R106). -/
  | noiseRaw1d (x seed : Word)
  /-- `noise.raw.2d x, y, seed` (R138). -/
  | noiseRaw2d (x y seed : Word)
  /-- `noise.raw.3d x, y, z, seed` (R139). -/
  | noiseRaw3d (x y z seed : Word)
  /-- `noise.raw.4d x, y, z, t, seed` (R140). -/
  | noiseRaw4d (x y z t seed : Word)
  /-- `noise.z1.1d x, seed` (R166). -/
  | noiseZeroOne1d (f : Prec) (x seed : Word)
  /-- `noise.z1.2d x, y, seed` (R167). -/
  | noiseZeroOne2d (f : Prec) (x y seed : Word)
  /-- `noise.z1.3d x, y, z, seed` (R168). -/
  | noiseZeroOne3d (f : Prec) (x y z seed : Word)
  /-- `noise.z1.4d x, y, z, t, seed` (R169). -/
  | noiseZeroOne4d (f : Prec) (x y z t seed : Word)
  /-- `noise.n1.1d x, seed` (R170). -/
  | noiseNegOne1d (f : Prec) (x seed : Word)
  /-- `noise.n1.2d x, y, seed` (R171). -/
  | noiseNegOne2d (f : Prec) (x y seed : Word)
  /-- `noise.n1.3d x, y, z, seed` (R172). -/
  | noiseNegOne3d (f : Prec) (x y z seed : Word)
  /-- `noise.n1.4d x, y, z, t, seed` (R173). -/
  | noiseNegOne4d (f : Prec) (x y z t seed : Word)
  /-- `fold.1d x` (R134). -/
  | fold1d (x : Word)
  /-- `fold.2d x, y` (R135). -/
  | fold2d (x y : Word)
  /-- `fold.3d x, y, z` (R136). -/
  | fold3d (x y z : Word)
  /-- `fold.4d x, y, z, t` (R137). -/
  | fold4d (x y z t : Word)
  /-- `map.z1 n`, with `n` in the field `x` (R164). -/
  | mapZeroOne (f : Prec) (n : Word)
  /-- `map.n1 n`, with `n` in the field `x` (R165). -/
  | mapNegOne (f : Prec) (n : Word)
deriving DecidableEq, Repr

end Sys2Proof
end

