-- ==== Sys2Proof/WellFormed.lean ====
section
/-! DEFINITION. The checks that can fail: the domains of the parameters (R5) and the operands as written (R78).
An `Instr` needs no check: every operand of a command is a whole 32-bit field (R72), so no ill-formed one can be built. -/

namespace Sys2Proof

/-- R5: `LATENCY` and `MAX_INFLIGHT` are integers of at least 1. -/
def Params.wellFormed (p : Params) : Bool :=
  decide (1 ≤ p.latency) && decide (1 ≤ p.maxInflight)

/-- R78: a hexadecimal operand has one to eight digits; a decimal one lies in `[-2^31, 2^31-1]`, and the operand `n`
of the `map` commands (`noise = true`) in `[0, 2^32-1]`. -/
def Literal.wellFormed (noise : Bool) : Literal → Bool
  | .hex ds => decide (1 ≤ ds.length) && decide (ds.length ≤ 8)
  | .dec n =>
    if noise then decide (0 ≤ n) && decide (n ≤ 4294967295)
    else decide (-2147483648 ≤ n) && decide (n ≤ 2147483647)

end Sys2Proof
end

