-- ==== Sys2Proof/Decode.lean ====
section
/-! DEFINITION. The packed and serialized forms (R53, R70, R76), the decoder (R71, R74), total and rejecting by name, and
the encoder (R73, R78). -/

namespace Sys2Proof

/-! ### Packed forms -/

/-- Byte `k` of a packed word is `W[8k+7:8k]`, byte 0 first (R53). -/
def leBytes {w : Nat} (count : Nat) (v : BitVec w) : List Byte :=
  (List.range count).map fun k => v.extractLsb' (8 * k) 8

/-- The number whose little-endian bytes are given (R53). -/
def leNat : List Byte → Nat
  | [] => 0
  | b :: rest => b.toNat + 256 * leNat rest

/-- `REQ = {seed, t, z, y, x, cmd}` (R70). -/
def Request.pack (r : Request) : BitVec 168 :=
  r.seed ++ r.t ++ r.z ++ r.y ++ r.x ++ r.cmd

/-- The fields of a packed request (R70). -/
def Request.unpack (w : BitVec 168) : Request where
  cmd  := w.extractLsb' 0 8
  x    := w.extractLsb' 8 32
  y    := w.extractLsb' 40 32
  z    := w.extractLsb' 72 32
  t    := w.extractLsb' 104 32
  seed := w.extractLsb' 136 32

/-- The 21 bytes of a request, first to last (R53, R70). -/
def Request.toBytes (r : Request) : List Byte :=
  leBytes 21 r.pack

/-- `RSP = {err, data}` (R76). -/
def Response.pack (r : Response) : BitVec 65 :=
  r.err ++ r.data

/-- The fields of a packed response (R76). -/
def Response.unpack (w : BitVec 65) : Response where
  data := w.extractLsb' 0 64
  err  := w.extractLsb' 64 1

/-- The 9 bytes of a response (R53, R76); the 7 bits above `RSP[64]` are 0 (DESIGN CHOICE, log entry 11). -/
def Response.toBytes (r : Response) : List Byte :=
  leBytes 9 r.pack

/-! ### The fields of `cmd` (R71) -/

/-- `CLASS = cmd[5:4]`. -/
inductive CmdClass where
  | noise
  | fold
  | map
  | reserved
deriving DecidableEq, Repr

/-- `FORM = cmd[3:2]`. -/
inductive Form where
  | raw
  | zeroOne
  | negOne
  | reserved
deriving DecidableEq, Repr

/-- `DIM = cmd[1:0]`. -/
inductive Dim where
  | d1
  | d2
  | d3
  | d4
deriving DecidableEq, Repr

/-- `RSV = cmd[7]`. -/
def cmdRsv (cmd : BitVec 8) : Bool := cmd.getLsbD 7

/-- `PREC = cmd[6]`: 0 is binary64, 1 is binary32. -/
def cmdPrec (cmd : BitVec 8) : Prec :=
  if cmd.getLsbD 6 then .binary32 else .binary64

/-- `CLASS`: `00` NOISE, `01` FOLD, `10` MAP, `11` reserved. -/
def cmdClass (cmd : BitVec 8) : CmdClass :=
  match cmd.getLsbD 5, cmd.getLsbD 4 with
  | false, false => .noise
  | false, true  => .fold
  | true,  false => .map
  | true,  true  => .reserved

/-- `FORM`: `00` RAW, `01` Z1, `10` N1, `11` reserved. -/
def cmdForm (cmd : BitVec 8) : Form :=
  match cmd.getLsbD 3, cmd.getLsbD 2 with
  | false, false => .raw
  | false, true  => .zeroOne
  | true,  false => .negOne
  | true,  true  => .reserved

/-- `DIM`: `00` 1D, `01` 2D, `10` 3D, `11` 4D. -/
def cmdDim (cmd : BitVec 8) : Dim :=
  match cmd.getLsbD 1, cmd.getLsbD 0 with
  | false, false => .d1
  | false, true  => .d2
  | true,  false => .d3
  | true,  true  => .d4

/-- R74's `legal`, word for word. -/
def legal (cmd : BitVec 8) : Bool :=
  if cmdRsv cmd then false
  else match cmdClass cmd with
    | .noise =>
      if cmdForm cmd = .reserved then false
      else if cmdForm cmd = .raw ∧ cmdPrec cmd ≠ .binary64 then false
      else true
    | .fold => decide (cmdForm cmd = .raw ∧ cmdPrec cmd = .binary64)
    | .map => decide (cmdDim cmd = .d1 ∧ (cmdForm cmd = .zeroOne ∨ cmdForm cmd = .negOne))
    | .reserved => false

/-! ### Decoding (R74) -/

/-- Why a request or a byte string names no command: the groups of R75, and the length of R77. -/
inductive Illegal where
  /-- `cmd[7] = 1`. -/
  | reservedBit
  /-- `CLASS = 11`. -/
  | reservedClass
  /-- NOISE with `FORM = 11`. -/
  | noiseForm
  /-- NOISE RAW with `PREC = 1`. -/
  | noisePrec
  /-- FOLD with `FORM ≠ 00`. -/
  | foldForm
  /-- FOLD with `PREC = 1`. -/
  | foldPrec
  /-- MAP with `DIM ≠ 00`. -/
  | mapDim
  /-- MAP with a `FORM` that is neither `01` nor `10`. -/
  | mapForm
  /-- A byte string that is not 21 bytes long (R70, R77). -/
  | badLength
deriving DecidableEq, Repr

/-- What the decoder answers: a command, or the reason there is none. -/
inductive Decoded where
  | instr (i : Instr)
  | illegal (why : Illegal)
deriving DecidableEq, Repr

/-- The raw NOISE command of a dimension (R72, R73). -/
def noiseRawOf (r : Request) : Dim → Instr
  | .d1 => .noiseRaw1d r.x r.seed
  | .d2 => .noiseRaw2d r.x r.y r.seed
  | .d3 => .noiseRaw3d r.x r.y r.z r.seed
  | .d4 => .noiseRaw4d r.x r.y r.z r.t r.seed

/-- The zero-to-one NOISE command of a dimension (R72, R73). -/
def noiseZeroOneOf (r : Request) (f : Prec) : Dim → Instr
  | .d1 => .noiseZeroOne1d f r.x r.seed
  | .d2 => .noiseZeroOne2d f r.x r.y r.seed
  | .d3 => .noiseZeroOne3d f r.x r.y r.z r.seed
  | .d4 => .noiseZeroOne4d f r.x r.y r.z r.t r.seed

/-- The neg-one-to-one NOISE command of a dimension (R72, R73). -/
def noiseNegOneOf (r : Request) (f : Prec) : Dim → Instr
  | .d1 => .noiseNegOne1d f r.x r.seed
  | .d2 => .noiseNegOne2d f r.x r.y r.seed
  | .d3 => .noiseNegOne3d f r.x r.y r.z r.seed
  | .d4 => .noiseNegOne4d f r.x r.y r.z r.t r.seed

/-- The FOLD command of a dimension (R72, R73). -/
def foldOf (r : Request) : Dim → Instr
  | .d1 => .fold1d r.x
  | .d2 => .fold2d r.x r.y
  | .d3 => .fold3d r.x r.y r.z
  | .d4 => .fold4d r.x r.y r.z r.t

/-- The row of R73 that `CLASS`, `FORM`, `PREC` and `DIM` name, or why there is none (R74, R75). -/
def decodeFields (r : Request) : CmdClass → Form → Prec → Dim → Decoded
  | .noise, .raw, .binary64, d => .instr (noiseRawOf r d)
  | .noise, .raw, .binary32, _ => .illegal .noisePrec
  | .noise, .zeroOne, f, d => .instr (noiseZeroOneOf r f d)
  | .noise, .negOne, f, d => .instr (noiseNegOneOf r f d)
  | .noise, .reserved, _, _ => .illegal .noiseForm
  | .fold, .raw, .binary64, d => .instr (foldOf r d)
  | .fold, .raw, .binary32, _ => .illegal .foldPrec
  | .fold, .zeroOne, _, _ => .illegal .foldForm
  | .fold, .negOne, _, _ => .illegal .foldForm
  | .fold, .reserved, _, _ => .illegal .foldForm
  | .map, .zeroOne, f, .d1 => .instr (.mapZeroOne f r.x)
  | .map, .negOne, f, .d1 => .instr (.mapNegOne f r.x)
  | .map, .raw, _, .d1 => .illegal .mapForm
  | .map, .reserved, _, .d1 => .illegal .mapForm
  | .map, _, _, .d2 => .illegal .mapDim
  | .map, _, _, .d3 => .illegal .mapDim
  | .map, _, _, .d4 => .illegal .mapDim
  | .reserved, _, _, _ => .illegal .reservedClass

/-- The command a request names: a function of `cmd` and of the fields that command reads (R72, R74). Total on all
256 values of `cmd`. -/
def decode (r : Request) : Decoded :=
  if cmdRsv r.cmd then .illegal .reservedBit
  else decodeFields r (cmdClass r.cmd) (cmdForm r.cmd) (cmdPrec r.cmd) (cmdDim r.cmd)

/-- The request that 21 bytes carry (R53, R70); no other length is a request (R77). -/
def Request.ofBytes (bs : List Byte) : Option Request :=
  if bs.length = 21 then some (Request.unpack (BitVec.ofNat 168 (leNat bs))) else none

/-- The decoder on any bytes (R53, R74, R77). -/
def decodeBytes (bs : List Byte) : Decoded :=
  match Request.ofBytes bs with
  | some r => decode r
  | none => .illegal .badLength

/-- The request whose low `nbits` bits are `w`, every bit above them 0. -/
def tableRequest (nbits w : Nat) : Request :=
  Request.unpack (BitVec.ofNat 168 (w % 2 ^ nbits))

/-- What the decoder reads from an instruction of the table whose bits are `w`: its 21 bytes, as the hardware stores
them, given to `decodeBytes`. -/
def decodeTableWord (nbits w : Nat) : Option Instr :=
  match decodeBytes (tableRequest nbits w).toBytes with
  | .instr i => some i
  | .illegal _ => none

/-! ### Encoding (R73, R78, R80) -/

/-- `cmd` of a float form: the value of R73 with `PREC = 0`, plus `0x40` for binary32. -/
def floatCmd (cmd : BitVec 8) : Prec → BitVec 8
  | .binary64 => cmd
  | .binary32 => cmd ||| 0x40#8

/-- The request of a command: `cmd` from the table of R73, the fields it does not read written as 0 (R78). -/
def encode : Instr → Request
  | .noiseRaw1d x seed => ⟨0x00#8, x, 0, 0, 0, seed⟩
  | .noiseRaw2d x y seed => ⟨0x01#8, x, y, 0, 0, seed⟩
  | .noiseRaw3d x y z seed => ⟨0x02#8, x, y, z, 0, seed⟩
  | .noiseRaw4d x y z t seed => ⟨0x03#8, x, y, z, t, seed⟩
  | .noiseZeroOne1d f x seed => ⟨floatCmd 0x04#8 f, x, 0, 0, 0, seed⟩
  | .noiseZeroOne2d f x y seed => ⟨floatCmd 0x05#8 f, x, y, 0, 0, seed⟩
  | .noiseZeroOne3d f x y z seed => ⟨floatCmd 0x06#8 f, x, y, z, 0, seed⟩
  | .noiseZeroOne4d f x y z t seed => ⟨floatCmd 0x07#8 f, x, y, z, t, seed⟩
  | .noiseNegOne1d f x seed => ⟨floatCmd 0x08#8 f, x, 0, 0, 0, seed⟩
  | .noiseNegOne2d f x y seed => ⟨floatCmd 0x09#8 f, x, y, 0, 0, seed⟩
  | .noiseNegOne3d f x y z seed => ⟨floatCmd 0x0A#8 f, x, y, z, 0, seed⟩
  | .noiseNegOne4d f x y z t seed => ⟨floatCmd 0x0B#8 f, x, y, z, t, seed⟩
  | .fold1d x => ⟨0x10#8, x, 0, 0, 0, 0⟩
  | .fold2d x y => ⟨0x11#8, x, y, 0, 0, 0⟩
  | .fold3d x y z => ⟨0x12#8, x, y, z, 0, 0⟩
  | .fold4d x y z t => ⟨0x13#8, x, y, z, t, 0⟩
  | .mapZeroOne f n => ⟨floatCmd 0x24#8 f, n, 0, 0, 0, 0⟩
  | .mapNegOne f n => ⟨floatCmd 0x28#8 f, n, 0, 0, 0, 0⟩

/-- The 21 bytes of a command (R53, R70). -/
def encodeBytes (i : Instr) : List Byte :=
  (encode i).toBytes

end Sys2Proof
end

