-- ==== Sys2Proof/Machine/State.lean ====
section
/-! DEFINITION. The state of the block and of its ports, the ways a step can stop, and the state right after reset. -/

namespace Sys2Proof.Machine

/-- One request accepted and not yet delivered (R30): its response, and the rising edges since its acceptance,
an integer without a width (DEDUCED, log entry 14). -/
structure Entry where
  data : Data
  err  : BitVec 1
  age  : Nat
deriving DecidableEq, Repr, Inhabited

/-- A transfer or a reset seen at the ports: the three steps of the transaction-level view (R36). -/
inductive Event where
  /-- A request was accepted. -/
  | accept (r : Request)
  /-- A response was delivered. -/
  | deliver (rsp : Response)
  /-- A rising edge with `rst = 1`. -/
  | reset
deriving DecidableEq, Repr

/-- The state. `q` is the block's own, and its only one (R30); `waiting` is the requester's half of the handshake
(R202, R233); `params` are the parameters a model takes as arguments (R5, log entry 1), which no step changes;
`pins`, `cycle` and `log` are the model's own (log entries 3, 4 and 5). -/
structure State where
  /-- `LATENCY`, `MAX_INFLIGHT`, `NEG_MAP` (R5). -/
  params  : Params
  /-- `Q`, oldest first (R30). -/
  q       : List Entry
  /-- What was offered at the last edge, with `req_valid = 1`, and not accepted there (R202, R233). -/
  waiting : Option Offer
  /-- The levels at the inputs at the coming edges, the next one first; past its end they are free. -/
  pins    : List Pins
  /-- How many edges there have been: the index of the free values. -/
  cycle   : Nat
  /-- The transfers seen so far, oldest first; no step reads it. -/
  log     : List Event
deriving DecidableEq, Repr

/-- Why the machine stops. No instruction raises a fault: both are the requester's (R202). -/
inductive Fault where
  /-- The requester dropped `req_valid` or changed a `req_*` field before its request was accepted (R202, R233);
  raised by `clockEdge`. Safe: the spec gives the run no behaviour and has a model prove nothing of it. -/
  | protocolViolation
  /-- The requester drove `req_*` or `rsp_ready` with unknown values while `rst = 0` (R202); raised by `clockEdge`.
  Safe, for the same reason. -/
  | unknownInput
deriving DecidableEq, Repr

/-- Why an instruction has no meaning. -/
inductive Refusal where
  /-- The instruction is not modelled; raised by no arm of `exec`. Safe. -/
  | notModelled (mnemonic : String)
deriving DecidableEq, Repr

/-- Right after reset, for given parameters: `Q` empty (R37, R230); no request waiting, nothing listed at the inputs, the
count and the record at their start (DESIGN CHOICE, log entries 3 to 6). -/
def State.resetWith (p : Params) : State :=
  { params := p, q := [], waiting := none, pins := [], cycle := 0, log := [] }

/-- The machine right after reset (R37, R230; a power-up without one is no start, log entry 9). -/
def State.reset : State :=
  State.resetWith Config.params

end Sys2Proof.Machine
end

