-- ==== Sys2Proof/Machine/Flags.lean ====
section
/-! DEFINITION. The block has no flags and no condition codes (R23). The one status bit of a response is `err`; it belongs to
that response alone, and no command reads it. -/

namespace Sys2Proof.Machine

/-- `err` of a legal command (R200). -/
def errNone : BitVec 1 := 0#1

/-- `err` of an illegal command: the only cause code (R201). -/
def errIllegalCommand : BitVec 1 := 1#1

end Sys2Proof.Machine
end

