-- ==== Sys2Proof/Machine/Operands.lean ====
section
/-! DEFINITION. How operands are read and results are placed: the integer readings of R7 and R8, and the layouts of R76. -/

namespace Sys2Proof.Machine

/-- `uint(w)`: the unsigned value (R7). -/
def uint (w : Word) : Int := (w.toNat : Int)

/-- `sint32(w)`: the two's-complement value (R7). -/
def sint32 (w : Word) : Int := w.toInt

/-- `u32(n) = n mod 2^32`, the Euclidean remainder, as a word (R8). -/
def u32 (n : Int) : Word := BitVec.ofNat 32 (n % 4294967296).toNat

/-- The layout of a raw noise value: `data[63:32] = 0` (R76). -/
def rawData (n : Word) : Data := n.zeroExtend 64

/-- The layout of a fold value: 64-bit two's complement, `F mod 2^64` (R76, R135). -/
def foldData (n : Int) : Data := BitVec.ofInt 64 n

/-- How many bits a float format has (R10). -/
abbrev floatWidth : Prec → Nat
  | .binary64 => 64
  | .binary32 => 32

/-- The layout of a float result: binary64 whole, binary32 in `data[31:0]` with `data[63:32] = 0` (R76, R162). -/
def floatData (f : Prec) (bits : BitVec (floatWidth f)) : Data := bits.zeroExtend 64

end Sys2Proof.Machine
end

