-- ==== Sys2Proof/Machine/Ops.lean ====
section
/-! DEFINITION. The named operations over the queue and the ports: the outputs (R34, R37), what a delivery, the passing of an
edge, an acceptance and a reset do to the state, what a command does (`respond`, R11) and what a reserved one does
(`raiseIllegalCommand`, R201). There is no trap entry and no return from one (R204). -/

namespace Sys2Proof.Machine

/-- The response an entry holds. -/
def Entry.response (e : Entry) : Response := { data := e.data, err := e.err }

/-- `Q` as the transaction-level view sees it (R36): the responses, oldest first. -/
def State.responses (s : State) : List Response := s.q.map Entry.response

/-! ### Outputs (R34, R37) -/

/-- The levels at the block's outputs (R27, R28). -/
structure Outputs where
  reqReady : Bool
  rspValid : Bool
  rspData  : Data
  rspErr   : BitVec 1
deriving DecidableEq, Repr

/-- `req_ready` at a cycle with `rst = 0`, read before the edge that ends it (R34). -/
def State.reqReady (s : State) : Bool :=
  decide (s.q.length < s.params.maxInflight)

/-- `rsp_valid` at a cycle with `rst = 0` (R34). -/
def State.rspValid (s : State) : Bool :=
  match s.q with
  | [] => false
  | e :: _ => decide (s.params.latency ≤ e.age)

/-- The response at the outputs when `rsp_valid = 1`: the head of `Q`; with `Q` empty, any value (R34, R37). -/
def State.headResponse (s : State) : Response :=
  match s.q with
  | [] => { data := Config.freeRspData s.cycle, err := Config.freeRspErr s.cycle }
  | e :: _ => e.response

/-- The outputs during a cycle with the given level of `rst`: R34 when it is 0, R37 when it is 1. `rsp_data` and
`rsp_err` are free values whenever `rsp_valid = 0` (R28, R235, D25; log entry 4). -/
def State.outputs (s : State) (rst : Bool) : Outputs where
  reqReady := !rst && s.reqReady
  rspValid := !rst && s.rspValid
  rspData  := if !rst && s.rspValid then s.headResponse.data else Config.freeRspData s.cycle
  rspErr   := if !rst && s.rspValid then s.headResponse.err else Config.freeRspErr s.cycle

/-! ### Inputs (R27, R28, R202, R233) -/

/-- The levels at the inputs at the coming edge: the next listed ones, or anything where none is listed. -/
def State.pinsNow (s : State) : Pins :=
  match s.pins with
  | [] => Config.freePins s.cycle
  | p :: _ => p

/-- What a rising edge sees at the inputs. An offer is what stands at `req_*` while `req_valid = 1`. -/
inductive Sampled where
  /-- `rst = 1`, and the offer, which R233 holds through it. -/
  | resetting (offer : Option Offer)
  /-- `rst = 0`, the request offered, and `rsp_ready`. -/
  | running (offer : Option Request) (take : Bool)
  /-- `rst = 0` and an unknown level at `req_valid`, a `req_*` field or `rsp_ready` (R202). -/
  | unknown
deriving DecidableEq, Repr

/-- What a request channel with a known `req_valid` offers. -/
def offerOf {α : Type} (valid : Bool) (fields : α) : Option α :=
  if valid then some fields else none

/-- Read the inputs (R27, R28). While `rst = 1` an unknown level stops nothing: unknown fields are offered as such when
`req_valid = 1`, and an unknown `req_valid` offers nothing (R233; log entry 7). -/
def samplePins (p : Pins) : Sampled :=
  if p.rst then
    match p.reqValid with
    | some v => .resetting (offerOf v p.req)
    | none => .resetting none
  else
    match p.reqValid, p.req, p.rspReady with
    | some v, some r, some rdy => .running (offerOf v r) rdy
    | some _, some _, none => .unknown
    | some _, none, _ => .unknown
    | none, _, _ => .unknown

/-- R233: what was offered and not accepted is offered again, every level unchanged. -/
def State.offerHeld (s : State) (offer : Option Offer) : Bool :=
  match s.waiting with
  | none => true
  | some o => decide (offer = some o)

/-! ### What an edge does (R34, R230) -/

/-- The edge is over: the next levels at the inputs become current. -/
def State.nextCycle (s : State) : State :=
  { s with pins := s.pins.tail, cycle := s.cycle + 1 }

/-- A response is delivered when `rsp_valid = 1` and `rsp_ready = 1`: `Q <- tail(Q)` (R28, R34). -/
def State.deliver (take : Bool) (s : State) : State :=
  if take && s.rspValid then
    { s with q := s.q.tail, log := s.log ++ [.deliver s.headResponse] }
  else s

/-- One more rising edge since an entry's acceptance. -/
def Entry.older (e : Entry) : Entry := { e with age := e.age + 1 }

/-- The age of every remaining entry goes up by 1 (R34). -/
def State.ageQueue (s : State) : State :=
  { s with q := s.q.map Entry.older }

/-- An edge with `rst = 0` up to an acceptance: the delivery, then the ages (R34). -/
def State.beforeAccept (take : Bool) (s : State) : State :=
  (s.nextCycle.deliver take).ageQueue

/-- The request channel after an edge at which `offer` was not accepted. -/
def State.leaveWaiting (offer : Option Offer) (s : State) : State :=
  { s with waiting := offer }

/-- A request is accepted: it waits no longer (R27). -/
def State.takeRequest (r : Request) (s : State) : State :=
  { s with waiting := none, log := s.log ++ [.accept r] }

/-- An edge with `rst = 1`: `Q <- []`; nothing is accepted and nothing delivered (R230). The offer stays on the port
(R233). -/
def State.resetEdge (offer : Option Offer) (s : State) : State :=
  { s.nextCycle with q := [], waiting := offer, log := s.log ++ [.reset] }

/-! ### What a command does (R11, R34, R201) -/

/-- `respond(data, err)`: the request's entry goes to the end of `Q`, with age 0 (R11, R34). -/
def State.respond (data : Data) (err : BitVec 1) (s : State) : State :=
  { s with q := s.q ++ [{ data := data, err := err, age := 0 }] }

/-- A legal command's answer: its data, with `err = 0`, and nothing else (R200). -/
def answer (data : Data) (s : State) : Host.Outcome State Fault Refusal :=
  .next (s.respond data errNone)

/-- `raise IllegalCommand()`: `respond(0, 1)`, and nothing else (R11, R201; a response and no fault, log entry 8). -/
def State.raiseIllegalCommand (s : State) : State :=
  s.respond 0#64 errIllegalCommand

end Sys2Proof.Machine
end

