-- ==== Sys2Proof/Machine/BitMixer.lean ====
section
/-! DEFINITION. The bit_mixer_hash stage (R100 to R104) and `noise.raw.1d` (R106). -/

namespace Sys2Proof.Machine

/-! ### The constants (R24) -/

/-- `C1`. -/
def mixC1 : Word := 0xD2A80A3F#32

/-- `C2`. -/
def mixC2 : Word := 0xA884F197#32

/-- `C3`. -/
def mixC3 : Word := 0x6C736F4B#32

/-- `C4`. -/
def mixC4 : Word := 0xB79F3ABB#32

/-- `C5`. -/
def mixC5 : Word := 0x1B56C4F5#32

/-! ### The hash -/

/-- `sanitizeSeed(s) = u32(abs(sint32(s)))` (R100). -/
def sanitizeSeed (s : Word) : Word := u32 ((sint32 s).natAbs : Int)

/-- `b XOR (b >> n)`, with the logical right shift (R9). -/
def xorShift (n : Nat) (b : Word) : Word := b ^^^ (b >>> n)

/-- Steps 3 and 4 of R102: the position by `C1`, plus the sanitized seed. -/
def mixEnter (p seedU : Word) : Word := p * mixC1 + seedU

/-- Steps 5 to 13 of R102, each wrapped to 32 bits before the next (R103). -/
def mixScramble (b : Word) : Word :=
  let b := xorShift 9 b
  let b := b + mixC2
  let b := xorShift 11 b
  let b := b * mixC3
  let b := xorShift 13 b
  let b := b + mixC4
  let b := xorShift 15 b
  let b := b * mixC5
  xorShift 17 b

/-- `mix(p, s)` (R102). -/
def mix (p s : Word) : Word := mixScramble (mixEnter p (sanitizeSeed s))

/-! ### The command -/

/-- `noise.raw.1d x, seed` (R106). -/
def execNoiseRaw1d (x seed : Word) (s : State) : Host.Outcome State Fault Refusal :=
  answer (rawData (mix x seed)) s

end Sys2Proof.Machine
end

