-- ==== Sys2Proof/Machine/DimensionFolder.lean ====
section
/-! DEFINITION. The dimension_folder stage (R130 to R133), the four `fold` commands (R134 to R137) and the raw NOISE commands
of 2, 3 and 4 dimensions (R138 to R140). -/

namespace Sys2Proof.Machine

/-! ### The primes (R25) -/

/-- `P1`, which weights `y`. -/
def foldP1 : Int := 198491317

/-- `P2`, which weights `z`. -/
def foldP2 : Int := 6542989

/-- `P3`, which weights `t`. -/
def foldP3 : Int := 357239

/-! ### The fold -/

/-- `term(P, c) = u32(P * sint32(c))`, an integer in `[0, 2^32-1]`; the product is exact before it is reduced (R130). -/
def foldTerm (p : Int) (c : Word) : Int := uint (u32 (p * sint32 c))

/-- `fold1(x)`: the index itself (R131). -/
def fold1 (x : Word) : Int := sint32 x

/-- `fold2(x, y)`, not reduced (R131, R132). -/
def fold2 (x y : Word) : Int := sint32 x + foldTerm foldP1 y

/-- `fold3(x, y, z)`, not reduced (R131, R132). -/
def fold3 (x y z : Word) : Int := sint32 x + foldTerm foldP1 y + foldTerm foldP2 z

/-- `fold4(x, y, z, t)`, not reduced (R131, R132). -/
def fold4 (x y z t : Word) : Int :=
  sint32 x + foldTerm foldP1 y + foldTerm foldP2 z + foldTerm foldP3 t

/-! ### The raw noise of each dimension -/

/-- The noise value of `noise.raw.2d`: the position is `u32(F)` (R133, R138). -/
def noise2 (x y seed : Word) : Word := mix (u32 (fold2 x y)) seed

/-- The noise value of `noise.raw.3d` (R133, R139). -/
def noise3 (x y z seed : Word) : Word := mix (u32 (fold3 x y z)) seed

/-- The noise value of `noise.raw.4d` (R133, R140). -/
def noise4 (x y z t seed : Word) : Word := mix (u32 (fold4 x y z t)) seed

/-! ### The FOLD commands -/

/-- `fold.1d x`: `sext_64(x)` (R134). -/
def execFold1d (x : Word) (s : State) : Host.Outcome State Fault Refusal :=
  answer (x.signExtend 64) s

/-- `fold.2d x, y` (R135). -/
def execFold2d (x y : Word) (s : State) : Host.Outcome State Fault Refusal :=
  answer (foldData (fold2 x y)) s

/-- `fold.3d x, y, z` (R136). -/
def execFold3d (x y z : Word) (s : State) : Host.Outcome State Fault Refusal :=
  answer (foldData (fold3 x y z)) s

/-- `fold.4d x, y, z, t` (R137). -/
def execFold4d (x y z t : Word) (s : State) : Host.Outcome State Fault Refusal :=
  answer (foldData (fold4 x y z t)) s

/-! ### The raw NOISE commands -/

/-- `noise.raw.2d x, y, seed` (R138). -/
def execNoiseRaw2d (x y seed : Word) (s : State) : Host.Outcome State Fault Refusal :=
  answer (rawData (noise2 x y seed)) s

/-- `noise.raw.3d x, y, z, seed` (R139). -/
def execNoiseRaw3d (x y z seed : Word) (s : State) : Host.Outcome State Fault Refusal :=
  answer (rawData (noise3 x y z seed)) s

/-- `noise.raw.4d x, y, z, t, seed` (R140). -/
def execNoiseRaw4d (x y z t seed : Word) (s : State) : Host.Outcome State Fault Refusal :=
  answer (rawData (noise4 x y z t seed)) s

end Sys2Proof.Machine
end

