-- ==== Sys2Proof/Machine/RangeMapper.lean ====
section
/-! DEFINITION. The range_mapper stage: exact rational rounding and the IEEE 754 encoding (R10; PRESUMED, log entry 13), the two
conversions (R160 to R162) and the `map` commands (R164, R165). -/

namespace Sys2Proof.Machine

/-! ### The formats (R10) -/

/-- `p`: the significand width. -/
def floatSig : Prec → Nat
  | .binary64 => 53
  | .binary32 => 24

/-- The exponent's bias. -/
def floatBias : Prec → Int
  | .binary64 => 1023
  | .binary32 => 127

/-! ### Rounding an exact quotient once, to nearest, ties to even (R10, D7) -/

/-- For positive `a` and `b`, the integer `e` with `2^e ≤ a/b < 2^(e+1)` (R10). -/
def quotExp (a b : Nat) : Int :=
  if b * 2 ^ a.log2 ≤ a * 2 ^ b.log2 then (a.log2 : Int) - b.log2 else (a.log2 : Int) - b.log2 - 1

/-- `a/b` rounded to an integer, nearest, ties to even (R10). -/
def rneDiv (a b : Nat) : Nat :=
  if 2 * (a % b) < b then a / b
  else if b < 2 * (a % b) then a / b + 1
  else a / b + a / b % 2

/-- `m = |q| * 2^k` rounded to an integer, for an integer `k` of either sign (R10). -/
def scaledSig (a b : Nat) (k : Int) : Nat :=
  rneDiv (a * 2 ^ k.toNat) (b * 2 ^ (-k).toNat)

/-- `{sign, biased exponent, fraction}`, with fields of widths 1, `ebits` and `p - 1` (R10). -/
def packFloat (f : Prec) (sign : Bool) (biased frac : Nat) : BitVec (floatWidth f) :=
  BitVec.ofNat (floatWidth f)
    ((if sign then 2 ^ (floatWidth f - 1) else 0) + biased * 2 ^ (floatSig f - 1) + frac)

/-- `enc_F` of `(-1)^sign * m * 2^(e - (p-1))`, with `m` in `[2^(p-1), 2^p]`: a significand of `2^p` is halved and `e`
goes up by 1 (R10). -/
def packNormal (f : Prec) (sign : Bool) (m : Nat) (e : Int) : BitVec (floatWidth f) :=
  if m = 2 ^ floatSig f then packFloat f sign (e + 1 + floatBias f).toNat 0
  else packFloat f sign (e + floatBias f).toNat (m - 2 ^ (floatSig f - 1))

/-- `enc_F(RNE_F(num / den))`, with `enc_F(0) = 0` (R10). -/
def encRne (f : Prec) (num : Int) (den : Nat) : BitVec (floatWidth f) :=
  if num = 0 then 0
  else
    packNormal f (decide (num < 0))
      (scaledSig num.natAbs den ((floatSig f : Int) - 1 - quotExp num.natAbs den))
      (quotExp num.natAbs den)

/-! ### The conversions (R26, R160, R161) -/

/-- `0xFFFFFFFF`, the divisor of zero-to-one and the numerator shift of neg-one-to-one (R26). -/
def unsignedMax : Nat := 4294967295

/-- `0x7FFFFFFF`, the divisor of neg-one-to-one (R26). -/
def signedMax : Nat := 2147483647

/-- `toZeroOne_F(n)` (R160). -/
def toZeroOne (f : Prec) (n : Word) : BitVec (floatWidth f) :=
  encRne f (uint n) unsignedMax

/-- `num(n)`, by `NEG_MAP` (R161). -/
def negNum (m : NegMap) (n : Word) : Int :=
  match m with
  | .folded => if uint n ≤ (signedMax : Int) then uint n else uint n - (unsignedMax : Int)
  | .literal => uint n - (unsignedMax : Int)
  | .signed => sint32 n

/-- `toNegOneOne_F(n)` (R161). -/
def toNegOne (m : NegMap) (f : Prec) (n : Word) : BitVec (floatWidth f) :=
  encRne f (negNum m n) signedMax

/-- Answer a noise value in the zero-to-one form (R162, R76). -/
def answerZeroOne (f : Prec) (n : Word) (s : State) : Host.Outcome State Fault Refusal :=
  answer (floatData f (toZeroOne f n)) s

/-- Answer a noise value in the neg-one-to-one form, under the machine's `NEG_MAP` (R162, R76). -/
def answerNegOne (f : Prec) (n : Word) (s : State) : Host.Outcome State Fault Refusal :=
  answer (floatData f (toNegOne s.params.negMap f n)) s

/-! ### The MAP commands -/

/-- `map.z1.{d,s} n` (R164). -/
def execMapZeroOne (f : Prec) (n : Word) (s : State) : Host.Outcome State Fault Refusal :=
  answerZeroOne f n s

/-- `map.n1.{d,s} n` (R165). -/
def execMapNegOne (f : Prec) (n : Word) (s : State) : Host.Outcome State Fault Refusal :=
  answerNegOne f n s

end Sys2Proof.Machine
end

