-- ==== Sys2Proof/Machine/FloatNoise.lean ====
section
/-! DEFINITION. The eight float NOISE commands: the raw noise value of the same dimension, then the conversion (R166 to R173). -/

namespace Sys2Proof.Machine

/-- `noise.z1.1d.{d,s} x, seed` (R166). -/
def execNoiseZeroOne1d (f : Prec) (x seed : Word) (s : State) : Host.Outcome State Fault Refusal :=
  answerZeroOne f (mix x seed) s

/-- `noise.z1.2d.{d,s} x, y, seed` (R167). -/
def execNoiseZeroOne2d (f : Prec) (x y seed : Word) (s : State) : Host.Outcome State Fault Refusal :=
  answerZeroOne f (noise2 x y seed) s

/-- `noise.z1.3d.{d,s} x, y, z, seed` (R168). -/
def execNoiseZeroOne3d (f : Prec) (x y z seed : Word) (s : State) : Host.Outcome State Fault Refusal :=
  answerZeroOne f (noise3 x y z seed) s

/-- `noise.z1.4d.{d,s} x, y, z, t, seed` (R169). -/
def execNoiseZeroOne4d (f : Prec) (x y z t seed : Word) (s : State) : Host.Outcome State Fault Refusal :=
  answerZeroOne f (noise4 x y z t seed) s

/-- `noise.n1.1d.{d,s} x, seed` (R170). -/
def execNoiseNegOne1d (f : Prec) (x seed : Word) (s : State) : Host.Outcome State Fault Refusal :=
  answerNegOne f (mix x seed) s

/-- `noise.n1.2d.{d,s} x, y, seed` (R171). -/
def execNoiseNegOne2d (f : Prec) (x y seed : Word) (s : State) : Host.Outcome State Fault Refusal :=
  answerNegOne f (noise2 x y seed) s

/-- `noise.n1.3d.{d,s} x, y, z, seed` (R172). -/
def execNoiseNegOne3d (f : Prec) (x y z seed : Word) (s : State) : Host.Outcome State Fault Refusal :=
  answerNegOne f (noise3 x y z seed) s

/-- `noise.n1.4d.{d,s} x, y, z, t, seed` (R173). -/
def execNoiseNegOne4d (f : Prec) (x y z t seed : Word) (s : State) : Host.Outcome State Fault Refusal :=
  answerNegOne f (noise4 x y z t seed) s

end Sys2Proof.Machine
end

