-- ==== Sys2Proof/Machine/Dispatch.lean ====
section
/-! DEFINITION. What accepting each command does to the state: one arm per constructor of `Instr` (R12, R74). -/

namespace Sys2Proof.Machine

/-- Execute a legal command whose request is being accepted (R12, R34, R74). -/
def exec (i : Instr) (s : State) : Host.Outcome State Fault Refusal :=
  match i with
  | .noiseRaw1d x seed => Sys2Proof.Machine.execNoiseRaw1d x seed s
  | .noiseRaw2d x y seed => Sys2Proof.Machine.execNoiseRaw2d x y seed s
  | .noiseRaw3d x y z seed => Sys2Proof.Machine.execNoiseRaw3d x y z seed s
  | .noiseRaw4d x y z t seed => Sys2Proof.Machine.execNoiseRaw4d x y z t seed s
  | .noiseZeroOne1d f x seed => Sys2Proof.Machine.execNoiseZeroOne1d f x seed s
  | .noiseZeroOne2d f x y seed => Sys2Proof.Machine.execNoiseZeroOne2d f x y seed s
  | .noiseZeroOne3d f x y z seed => Sys2Proof.Machine.execNoiseZeroOne3d f x y z seed s
  | .noiseZeroOne4d f x y z t seed => Sys2Proof.Machine.execNoiseZeroOne4d f x y z t seed s
  | .noiseNegOne1d f x seed => Sys2Proof.Machine.execNoiseNegOne1d f x seed s
  | .noiseNegOne2d f x y seed => Sys2Proof.Machine.execNoiseNegOne2d f x y seed s
  | .noiseNegOne3d f x y z seed => Sys2Proof.Machine.execNoiseNegOne3d f x y z seed s
  | .noiseNegOne4d f x y z t seed => Sys2Proof.Machine.execNoiseNegOne4d f x y z t seed s
  | .fold1d x => Sys2Proof.Machine.execFold1d x s
  | .fold2d x y => Sys2Proof.Machine.execFold2d x y s
  | .fold3d x y z => Sys2Proof.Machine.execFold3d x y z s
  | .fold4d x y z t => Sys2Proof.Machine.execFold4d x y z t s
  | .mapZeroOne f n => Sys2Proof.Machine.execMapZeroOne f n s
  | .mapNegOne f n => Sys2Proof.Machine.execMapNegOne f n s

end Sys2Proof.Machine
end

