-- ==== Sys2Proof/Machine/Clock.lean ====
section
/-! DEFINITION. One rising edge of `clk` (R29, R34, R230), and how a request is placed on the request port. -/

namespace Sys2Proof.Machine

/-- `exec(req)` of R74, at the acceptance of the request: the rule of the command it names, or `IllegalCommand`. -/
def execRequest (r : Request) (s : State) : Host.Outcome State Fault Refusal :=
  match decode r with
  | .instr i => exec i s
  | .illegal _ => .next s.raiseIllegalCommand

/-- A rising edge with `rst = 0` (R34): the delivery, the ages, then the acceptance. `req_ready` is read before the
edge; an offer that is not accepted stays on the port. -/
def runEdge (offer : Option Request) (take : Bool) (s : State) : Host.Outcome State Fault Refusal :=
  match offer with
  | none => .next ((s.beforeAccept take).leaveWaiting none)
  | some r =>
    if s.reqReady then execRequest r ((s.beforeAccept take).takeRequest r)
    else .next ((s.beforeAccept take).leaveWaiting (some (some r)))

/-- A rising edge of `clk`: R230 when `rst = 1`, R34 when `rst = 0`; a requester that breaks its half of the handshake
stops the run (R202, R233). -/
def clockEdge (s : State) : Host.Outcome State Fault Refusal :=
  match samplePins s.pinsNow with
  | .unknown => .fault .unknownInput
  | .resetting offer =>
    if s.offerHeld offer then .next (s.resetEdge offer) else .fault .protocolViolation
  | .running offer take =>
    if s.offerHeld (offer.map some) then runEdge offer take s else .fault .protocolViolation

/-- The levels of an edge at which the requester offers `r` and takes no response. -/
def offerPins (r : Request) : Pins where
  rst      := false
  reqValid := some true
  req      := some r
  rspReady := some false

/-- `s` with `r` on the request port for the next edge, which will accept it: nothing else waits there, and `Q` has
room (a full `Q` keeps its oldest entries, one fewer than `MAX_INFLIGHT`); see log entry 10. -/
def State.withOffer (s : State) (r : Request) : State :=
  { s with
    q := if s.q.length < s.params.maxInflight then s.q else s.q.take (s.params.maxInflight - 1)
    waiting := none
    pins := offerPins r :: s.pins }

end Sys2Proof.Machine
end

