-- ==== Sys2Proof/Machine/Step.lean ====
section
/-! DEFINITION. One step of the machine is one rising edge of `clk` (R29). -/

namespace Sys2Proof.Machine

/-- One rising edge of `clk`. -/
def step (s : State) : Host.Outcome State Fault Refusal :=
  clockEdge s

/-- `s` with the instruction whose low `nbits` bits are `w` offered on the request port, so that the next step accepts
and runs it (log entry 10). -/
def State.withFetchWord (s : State) (nbits w : Nat) : State :=
  s.withOffer (tableRequest nbits w)

end Sys2Proof.Machine
end

