-- ==== Sys2Proof/Machine/Assembler.lean ====
section
/-! DEFINITION. Written commands: the mnemonics and the operand order (R73, R78), the aliases (R79), the encoding (R80), and
how a line of text is read (log entry 12). -/

namespace Sys2Proof.Machine

/-! ### Names (R73, R78, R79) -/

/-- The mnemonics of R73, with the suffix of R78 on the float forms, and their `cmd`. -/
def commandNames : List (String × BitVec 8) :=
  [("noise.raw.1d", 0x00#8), ("noise.raw.2d", 0x01#8), ("noise.raw.3d", 0x02#8), ("noise.raw.4d", 0x03#8)]
  ++ [("noise.z1.1d.d", 0x04#8), ("noise.z1.2d.d", 0x05#8), ("noise.z1.3d.d", 0x06#8), ("noise.z1.4d.d", 0x07#8)]
  ++ [("noise.z1.1d.s", 0x44#8), ("noise.z1.2d.s", 0x45#8), ("noise.z1.3d.s", 0x46#8), ("noise.z1.4d.s", 0x47#8)]
  ++ [("noise.n1.1d.d", 0x08#8), ("noise.n1.2d.d", 0x09#8), ("noise.n1.3d.d", 0x0A#8), ("noise.n1.4d.d", 0x0B#8)]
  ++ [("noise.n1.1d.s", 0x48#8), ("noise.n1.2d.s", 0x49#8), ("noise.n1.3d.s", 0x4A#8), ("noise.n1.4d.s", 0x4B#8)]
  ++ [("fold.1d", 0x10#8), ("fold.2d", 0x11#8), ("fold.3d", 0x12#8), ("fold.4d", 0x13#8)]
  ++ [("map.z1.d", 0x24#8), ("map.z1.s", 0x64#8), ("map.n1.d", 0x28#8), ("map.n1.s", 0x68#8)]

/-- The aliases of R79: what is written, and the mnemonic it expands to. -/
def aliasNames : List (String × String) :=
  [("mix", "noise.raw.1d")]
  ++ [("noiseRaw1D", "noise.raw.1d"), ("noiseRaw2D", "noise.raw.2d"), ("noiseRaw3D", "noise.raw.3d"), ("noiseRaw4D", "noise.raw.4d")]
  ++ [("noiseZeroToOne1D", "noise.z1.1d.d"), ("noiseZeroToOne2D", "noise.z1.2d.d")]
  ++ [("noiseZeroToOne3D", "noise.z1.3d.d"), ("noiseZeroToOne4D", "noise.z1.4d.d")]
  ++ [("noiseNegOneToOne1D", "noise.n1.1d.d"), ("noiseNegOneToOne2D", "noise.n1.2d.d")]
  ++ [("noiseNegOneToOne3D", "noise.n1.3d.d"), ("noiseNegOneToOne4D", "noise.n1.4d.d")]
  ++ [("toZeroOne", "map.z1.d"), ("toNegOneOne", "map.n1.d")]

/-- The mnemonic a written name stands for: an alias expands to one, any other name is itself (R79). -/
def expandAlias (name : String) : String :=
  match aliasNames.lookup name with
  | some full => full
  | none => name

/-- `cmd` of a written name (R80). -/
def cmdOfName (name : String) : Option (BitVec 8) :=
  commandNames.lookup (expandAlias name)

/-! ### Operands (R78, R80) -/

/-- A field of the request that a written operand fills. -/
inductive Field where
  | x
  | y
  | z
  | t
  | seed
deriving DecidableEq, Repr

/-- The coordinates of a dimension, in the order they are written (R78). -/
def coordinates : Dim → List Field
  | .d1 => [.x]
  | .d2 => [.x, .y]
  | .d3 => [.x, .y, .z]
  | .d4 => [.x, .y, .z, .t]

/-- The operands of a command, in the order they are written (R78). -/
def operandFields (cmd : BitVec 8) : List Field :=
  match cmdClass cmd with
  | .noise => coordinates (cmdDim cmd) ++ [.seed]
  | .fold => coordinates (cmdDim cmd)
  | .map => [.x]
  | .reserved => []

/-- The number that hexadecimal digits name, high to low. -/
def hexNat (digits : List (Fin 16)) : Nat :=
  digits.foldl (fun acc d => 16 * acc + d.val) 0

/-- The 32-bit pattern of a written operand: two's complement of a decimal value, or the pattern itself (R80). -/
def literalWord : Literal → Word
  | .dec n => u32 n
  | .hex ds => BitVec.ofNat 32 (hexNat ds)

/-- Write one operand into its field. -/
def setField (r : Request) : Field × Word → Request
  | (.x, w) => { r with x := w }
  | (.y, w) => { r with y := w }
  | (.z, w) => { r with z := w }
  | (.t, w) => { r with t := w }
  | (.seed, w) => { r with seed := w }

/-- Why the assembler rejects a written command (R78). -/
inductive Rejection where
  /-- The name is neither a mnemonic of R73 with its suffix nor an alias of R79. -/
  | unknownName
  /-- Not as many operands as the command takes. -/
  | operandCount
  /-- An operand out of its range, or not of the written form. -/
  | badOperand
deriving DecidableEq, Repr

/-- What the assembler answers. -/
inductive Assembled where
  | request (r : Request)
  | rejected (why : Rejection)
deriving DecidableEq, Repr

/-- The request of a written command: `cmd` by its name, each operand in its field, every other field 0 (R78, R80). -/
def assemble (w : Written) : Assembled :=
  match cmdOfName w.name with
  | none => .rejected .unknownName
  | some cmd =>
    if w.operands.length ≠ (operandFields cmd).length then .rejected .operandCount
    else if w.operands.all (Literal.wellFormed (decide (cmdClass cmd = .map))) then
      .request (((operandFields cmd).zip (w.operands.map literalWord)).foldl setField ⟨cmd, 0, 0, 0, 0, 0⟩)
    else .rejected .badOperand

/-! ### A line of text (R78; spaces and the case of digits are DESIGN CHOICE, log entry 12) -/

/-- The value of a hexadecimal digit. -/
def hexDigit (c : Char) : Option (Fin 16) :=
  ("0123456789abcdef".toList.zip (List.finRange 16)).lookup c.toLower

/-- The value of a decimal numeral of at least one digit. -/
def decimalNat (cs : List Char) : Option Nat :=
  if cs = [] then none
  else cs.foldl (fun acc c => acc.bind fun n => if c.isDigit then some (10 * n + (c.toNat - 48)) else none) (some 0)

/-- One operand of a line. -/
def parseLiteral : List Char → Option Literal
  | '0' :: 'x' :: ds => (ds.mapM hexDigit).map .hex
  | '-' :: ds => (decimalNat ds).map fun n => .dec (-(n : Int))
  | ds => (decimalNat ds).map fun n => .dec (n : Int)

/-- Cut at every comma. -/
def splitCommas : List Char → List (List Char)
  | [] => [[]]
  | c :: rest =>
    if c = ',' then [] :: splitCommas rest
    else match splitCommas rest with
      | [] => [[c]]
      | piece :: more => (c :: piece) :: more

/-- Drop the spaces before and after. -/
def trimSpaces (cs : List Char) : List Char :=
  ((cs.dropWhile (· = ' ')).reverse.dropWhile (· = ' ')).reverse

/-- Assemble a line: a name, spaces, and operands separated by commas (R78). -/
def assembleLine (line : List Char) : Assembled :=
  match (splitCommas ((trimSpaces line).dropWhile (· ≠ ' '))).mapM (fun cs => parseLiteral (trimSpaces cs)) with
  | none => .rejected .badOperand
  | some ops => assemble ⟨String.ofList ((trimSpaces line).takeWhile (· ≠ ' ')), ops⟩

end Sys2Proof.Machine
end

