-- ==== Sys2Proof/Machine/Transaction.lean ====
section
/-! DEFINITION. The transaction-level view (R36): the machine without time, the response a request gets, and the record of
requests and responses since the last reset (R57, R238). -/

namespace Sys2Proof.Machine

/-- `exec(req) -> (data, err)` as a function of the request alone (R12): what a block just reset answers it. -/
def responseOf (p : Params) (r : Request) : Option Response :=
  match execRequest r (State.resetWith p) with
  | .next t => t.responses.head?
  | .fault _ => none
  | .refused _ => none

/-- One step of the transaction-level view (R36): `Accept(req)` while fewer than `MAX_INFLIGHT` are in flight, `Deliver`
of the head of a `Q` that is not empty, `Reset` always. -/
def txnStep (p : Params) (q : List Response) : Event → Option (List Response)
  | .accept r =>
    if q.length < p.maxInflight then (responseOf p r).map fun rsp => q ++ [rsp] else none
  | .deliver rsp =>
    match q with
    | [] => none
    | head :: rest => if head = rsp then some rest else none
  | .reset => some []

/-- A sequence of transaction-level steps, from a given `Q`; `none` when one of them is not enabled (R36). -/
def txnRun (p : Params) (q : List Response) : List Event → Option (List Response)
  | [] => some q
  | e :: rest =>
    match txnStep p q e with
    | none => none
    | some q' => txnRun p q' rest

/-- The requests accepted and the responses delivered since the last reset (R57, R231). -/
structure Ledger where
  accepted  : List Request
  delivered : List Response
deriving DecidableEq, Repr

/-- One more event in the record. -/
def Ledger.note (l : Ledger) : Event → Ledger
  | .accept r => { l with accepted := l.accepted ++ [r] }
  | .deliver rsp => { l with delivered := l.delivered ++ [rsp] }
  | .reset => { accepted := [], delivered := [] }

/-- The record that a sequence of events leaves. -/
def ledgerOf (events : List Event) : Ledger :=
  events.foldl Ledger.note { accepted := [], delivered := [] }

/-- The response of a delivery. -/
def Event.delivery : Event → Option Response
  | .accept _ => none
  | .deliver rsp => some rsp
  | .reset => none

/-- The responses delivered in a sequence of events, in order: what a run leaves (R238). -/
def deliveries (events : List Event) : List Response :=
  events.filterMap Event.delivery

end Sys2Proof.Machine
end

