-- ==== Sys2Proof/Safety.lean ====
section
/-! DEFINITION. What counts as a sound state and a finished run, and how a float pattern is read back as a number. -/

namespace Sys2Proof.Machine

/-! ### Sound states -/

/-- R30: at most `MAX_INFLIGHT` requests are in flight. -/
abbrev State.WithinDepth (s : State) : Prop := s.q.length ≤ s.params.maxInflight

/-- `Q` is oldest first, and no two entries were accepted at one edge (R30, R34). -/
abbrev State.OldestFirst (s : State) : Prop := s.q.Pairwise fun a b => b.age < a.age

/-- No entry is older than the machine (R30). -/
abbrev State.AgesCounted (s : State) : Prop := ∀ e ∈ s.q, e.age < s.cycle

/-- An entry with `err = 1` has `data = 0` (R76, R201). -/
abbrev State.ErrorsEmpty (s : State) : Prop := ∀ e ∈ s.q, e.err = 1#1 → e.data = 0#64

/-- The invariant of the block: its parameters lie in their domains (R5), and its queue is one that R34 can leave. -/
structure State.Sound (s : State) : Prop where
  params      : s.params.wellFormed = true
  depth       : s.WithinDepth
  oldestFirst : s.OldestFirst
  ages        : s.AgesCounted
  errors      : s.ErrorsEmpty

/-- R57: since the last reset, the requests accepted have the responses delivered and then the responses in `Q`, in order,
one each. -/
def State.InOrder (s : State) : Prop :=
  (ledgerOf s.log).accepted.map (responseOf s.params) =
    ((ledgerOf s.log).delivered ++ s.responses).map some

/-- The run has ended: `Q` is empty (R238). -/
abbrev State.Finished (s : State) : Prop := s.q = []

/-- `n` rising edges, stopping at the first fault. -/
def runSteps : Nat → State → Host.Outcome State Fault Refusal
  | 0, s => .next s
  | n + 1, s =>
    match step s with
    | .next t => runSteps n t
    | .fault f => .fault f
    | .refused x => .refused x

/-! ### The number a float pattern stands for (R10) -/

/-- The sign bit. -/
def floatSign (f : Prec) (b : BitVec (floatWidth f)) : Bool := b.msb

/-- The biased exponent field. -/
def floatBiased (f : Prec) (b : BitVec (floatWidth f)) : Nat :=
  b.toNat / 2 ^ (floatSig f - 1) % 2 ^ (floatWidth f - floatSig f)

/-- The fraction field. -/
def floatFrac (f : Prec) (b : BitVec (floatWidth f)) : Nat :=
  b.toNat % 2 ^ (floatSig f - 1)

/-- Neither infinite nor NaN. -/
abbrev FloatFinite (f : Prec) (b : BitVec (floatWidth f)) : Prop :=
  floatBiased f b ≠ 2 ^ (floatWidth f - floatSig f) - 1

/-- Finite, and neither zero nor subnormal. -/
abbrev FloatNormal (f : Prec) (b : BitVec (floatWidth f)) : Prop :=
  FloatFinite f b ∧ floatBiased f b ≠ 0

/-- The value of a finite pattern. -/
def floatValue (f : Prec) (b : BitVec (floatWidth f)) : ℚ :=
  (if floatSign f b then -1 else 1) *
    (if floatBiased f b = 0 then
      (floatFrac f b : ℚ) * 2 ^ (2 - floatBias f - (floatSig f : Int))
    else
      ((2 ^ (floatSig f - 1) + floatFrac f b : Nat) : ℚ)
        * 2 ^ ((floatBiased f b : Int) - floatBias f - ((floatSig f : Int) - 1)))

end Sys2Proof.Machine
end

