-- ==== Sys2Proof/Certificates/Slice0/Obligations.lean ====
section
/-! DEFINITION. The statements about the model, and the spec's arithmetic written a second time, on plain integers, for
them to be stated with. -/

namespace Sys2Proof.Reference

open Sys2Proof.Machine

/-- `s` after a legal command answered `data`: one entry more, nothing else changed (R34, R200). -/
def answered (s : State) (data : Data) : State :=
  { s with q := s.q ++ [{ data := data, err := 0#1, age := 0 }] }

/-- `b XOR (b >> n)` on natural numbers, for `d = 2^n` (R9). -/
def xorDiv (d b : Nat) : Nat := b ^^^ (b / d)

/-- The fourteen steps of R102 on natural numbers, from the position and the sanitized seed. -/
def mixNat (p u : Nat) : Nat :=
  let b := p * 0xD2A80A3F % 4294967296
  let b := (b + u) % 4294967296
  let b := xorDiv 512 b
  let b := (b + 0xA884F197) % 4294967296
  let b := xorDiv 2048 b
  let b := b * 0x6C736F4B % 4294967296
  let b := xorDiv 8192 b
  let b := (b + 0xB79F3ABB) % 4294967296
  let b := xorDiv 32768 b
  let b := b * 0x1B56C4F5 % 4294967296
  xorDiv 131072 b

/-- The noise value at an integer position (R100, R101, R102). -/
def noiseNat (pos : Int) (seed : Word) : Nat :=
  mixNat (pos % 4294967296).toNat (seed.toInt.natAbs % 4294967296)

/-- The noise value as a word. -/
def noiseWord (pos : Int) (seed : Word) : Word := BitVec.ofNat 32 (noiseNat pos seed)

/-- R131, two dimensions. -/
def foldInt2 (x y : Word) : Int := x.toInt + 198491317 * y.toInt % 4294967296

/-- R131, three dimensions. -/
def foldInt3 (x y z : Word) : Int := foldInt2 x y + 6542989 * z.toInt % 4294967296

/-- R131, four dimensions. -/
def foldInt4 (x y z t : Word) : Int := foldInt3 x y z + 357239 * t.toInt % 4294967296

/-- The two `cmd` values of a float form: with `PREC = 0` and with `PREC = 1` (R73). -/
def byPrec (double single : BitVec 8) : Prec → BitVec 8
  | .binary64 => double
  | .binary32 => single

/-- The rows of spec/opcode_table.json: `match` and `mask` over `cmd`. -/
def tableRows : List (BitVec 8 × BitVec 8) :=
  [(0x00#8, 0xFF#8), (0x01#8, 0xFF#8), (0x02#8, 0xFF#8), (0x03#8, 0xFF#8)]
  ++ [(0x04#8, 0xBF#8), (0x05#8, 0xBF#8), (0x06#8, 0xBF#8), (0x07#8, 0xBF#8)]
  ++ [(0x08#8, 0xBF#8), (0x09#8, 0xBF#8), (0x0A#8, 0xBF#8), (0x0B#8, 0xBF#8)]
  ++ [(0x10#8, 0xFF#8), (0x11#8, 0xFF#8), (0x12#8, 0xFF#8), (0x13#8, 0xFF#8)]
  ++ [(0x24#8, 0xBF#8), (0x28#8, 0xBF#8)]

/-- How many rows of the table a `cmd` matches. -/
def rowsMatching (cmd : BitVec 8) : Nat :=
  (tableRows.filter fun row => cmd &&& row.2 = row.1).length

/-- The five groups of R75 that are decided by a class, in its words, over the fields of R71. -/
def reservedGroup (cmd : BitVec 8) : Bool :=
  let prec := cmd.extractLsb' 6 1
  let cls := cmd.extractLsb' 4 2
  let form := cmd.extractLsb' 2 2
  let dim := cmd.extractLsb' 0 2
  decide (cls = 3#2)
  || decide (cls = 0#2 ∧ (form = 3#2 ∨ (form = 0#2 ∧ prec = 1#1)))
  || decide (cls = 1#2 ∧ (form ≠ 0#2 ∨ prec = 1#1))
  || decide (cls = 2#2 ∧ (dim ≠ 0#2 ∨ (form ≠ 1#2 ∧ form ≠ 2#2)))

/-- R75: the reserved values of `cmd`. -/
def reserved (cmd : BitVec 8) : Bool :=
  decide (cmd.extractLsb' 7 1 = 1#1) || reservedGroup cmd

/-- All 256 values of `cmd`. -/
def allCmds : List (BitVec 8) := (List.range 256).map (BitVec.ofNat 8)

/-- R72: does the command read `seed`? -/
def readsSeed (cmd : BitVec 8) : Prop := cmdClass cmd = .noise

/-- R72: does the command read `y`? -/
def readsY (cmd : BitVec 8) : Prop := cmdClass cmd ≠ .map ∧ cmdDim cmd ≠ .d1

/-- R72: does the command read `z`? -/
def readsZ (cmd : BitVec 8) : Prop := cmdClass cmd ≠ .map ∧ (cmdDim cmd = .d3 ∨ cmdDim cmd = .d4)

/-- R72: does the command read `t`? -/
def readsT (cmd : BitVec 8) : Prop := cmdClass cmd ≠ .map ∧ cmdDim cmd = .d4

/-- Is it a MAP command: `CLASS = 10` (R71)? -/
def isMapCmd (cmd : BitVec 8) : Bool := decide (cmd.extractLsb' 4 2 = 2#2)

/-- R78: how many operands a command is written with: `n`; or as many coordinates as `DIM` asks, and in NOISE the seed. -/
def operandCountOf (cmd : BitVec 8) : Nat :=
  if isMapCmd cmd then 1
  else (cmd.extractLsb' 0 2).toNat + 1 + (if cmd.extractLsb' 4 2 = 0#2 then 1 else 0)

/-- R78: the operands that are allowed: a decimal in its range, which is another one for the operand of a MAP command, or
one to eight hexadecimal digits. -/
def operandOk (map : Bool) : Literal → Prop
  | .dec n => if map then 0 ≤ n ∧ n < 2 ^ 32 else -2 ^ 31 ≤ n ∧ n < 2 ^ 31
  | .hex ds => 1 ≤ ds.length ∧ ds.length ≤ 8

/-- R73, R78: the written names of the 1D NOISE commands, with their `cmd`. -/
def noise1dNames : List (String × BitVec 8) :=
  [("noise.raw.1d", 0x00#8), ("noise.z1.1d.d", 0x04#8), ("noise.z1.1d.s", 0x44#8), ("noise.n1.1d.d", 0x08#8),
    ("noise.n1.1d.s", 0x48#8)]

/-- R73, R78: the written names of the 2D NOISE commands, with their `cmd`. -/
def noise2dNames : List (String × BitVec 8) :=
  [("noise.raw.2d", 0x01#8), ("noise.z1.2d.d", 0x05#8), ("noise.z1.2d.s", 0x45#8), ("noise.n1.2d.d", 0x09#8),
    ("noise.n1.2d.s", 0x49#8)]

/-- R73, R78: the written names of the 3D NOISE commands, with their `cmd`. -/
def noise3dNames : List (String × BitVec 8) :=
  [("noise.raw.3d", 0x02#8), ("noise.z1.3d.d", 0x06#8), ("noise.z1.3d.s", 0x46#8), ("noise.n1.3d.d", 0x0A#8),
    ("noise.n1.3d.s", 0x4A#8)]

/-- R73, R78: the written names of the 4D NOISE commands, with their `cmd`. -/
def noise4dNames : List (String × BitVec 8) :=
  [("noise.raw.4d", 0x03#8), ("noise.z1.4d.d", 0x07#8), ("noise.z1.4d.s", 0x47#8), ("noise.n1.4d.d", 0x0B#8),
    ("noise.n1.4d.s", 0x4B#8)]

/-- R73, R78: the written names of the MAP commands, with their `cmd`. -/
def mapNames : List (String × BitVec 8) :=
  [("map.z1.d", 0x24#8), ("map.z1.s", 0x64#8), ("map.n1.d", 0x28#8), ("map.n1.s", 0x68#8)]

/-- Is it one of the five commands in the neg-one-to-one form (R165, R170 to R173)? -/
def isNegOne : Instr → Bool
  | .noiseNegOne1d _ _ _ => true
  | .noiseNegOne2d _ _ _ _ => true
  | .noiseNegOne3d _ _ _ _ _ => true
  | .noiseNegOne4d _ _ _ _ _ _ => true
  | .mapNegOne _ _ => true
  | .noiseRaw1d _ _ | .noiseRaw2d _ _ _ | .noiseRaw3d _ _ _ _ | .noiseRaw4d _ _ _ _ _ => false
  | .noiseZeroOne1d _ _ _ | .noiseZeroOne2d _ _ _ _ | .noiseZeroOne3d _ _ _ _ _ => false
  | .noiseZeroOne4d _ _ _ _ _ _ => false
  | .fold1d _ | .fold2d _ _ | .fold3d _ _ _ | .fold4d _ _ _ _ => false
  | .mapZeroOne _ _ => false

/-- Does the command answer in `data[31:0]` alone (R76): raw noise, or a binary32 result? -/
def answersInLowHalf : Instr → Bool
  | .noiseRaw1d _ _ | .noiseRaw2d _ _ _ | .noiseRaw3d _ _ _ _ | .noiseRaw4d _ _ _ _ _ => true
  | .noiseZeroOne1d f _ _ | .noiseZeroOne2d f _ _ _ | .noiseZeroOne3d f _ _ _ _ => decide (f = .binary32)
  | .noiseZeroOne4d f _ _ _ _ _ => decide (f = .binary32)
  | .noiseNegOne1d f _ _ | .noiseNegOne2d f _ _ _ | .noiseNegOne3d f _ _ _ _ => decide (f = .binary32)
  | .noiseNegOne4d f _ _ _ _ _ => decide (f = .binary32)
  | .mapZeroOne f _ | .mapNegOne f _ => decide (f = .binary32)
  | .fold1d _ | .fold2d _ _ | .fold3d _ _ _ | .fold4d _ _ _ _ => false

/-- R160: the exact zero-to-one quotient. -/
def zeroOneQuot (n : Word) : ℚ := (n.toNat : ℚ) / 4294967295

/-- R161: the numerator of the neg-one-to-one quotient, by `NEG_MAP`. -/
def negNumRef (m : NegMap) (n : Word) : Int :=
  match m with
  | .folded => if n.toNat ≤ 0x7FFFFFFF then (n.toNat : Int) else (n.toNat : Int) - 0xFFFFFFFF
  | .literal => (n.toNat : Int) - 0xFFFFFFFF
  | .signed => n.toInt

/-- R161: the exact neg-one-to-one quotient. -/
def negOneQuot (m : NegMap) (n : Word) : ℚ := (negNumRef m n : ℚ) / 2147483647

/-- `b` is the one finite pattern whose value lies nearest to `q`: every finite pattern of another value, subnormal or
normal, of either sign, is strictly farther away (R10; that no tie arises is R162). -/
def IsNearest (f : Prec) (q : ℚ) (b : BitVec (floatWidth f)) : Prop :=
  FloatFinite f b ∧ ∀ c : BitVec (floatWidth f), FloatFinite f c → floatValue f c ≠ floatValue f b →
    |floatValue f b - q| < |floatValue f c - q|

/-- The request channel of `s` is held: what was offered before and not accepted stands on the pins, `req_valid` and every
`req_*` field unchanged (R233). -/
def Held (s : State) : Prop :=
  ∀ o, s.waiting = some o → s.pinsNow.reqValid = some true ∧ s.pinsNow.req = o

/-- The entry of a request's response at its acceptance (R34). -/
def freshEntry (rsp : Response) : Entry := { data := rsp.data, err := rsp.err, age := 0 }

/-- R36: the transfers recorded so far are a run of the transaction-level view, and they leave its `Q` as the block's. -/
def TransactionRun (s : State) : Prop :=
  txnRun s.params [] s.log = some s.responses

end Sys2Proof.Reference

open Sys2Proof Sys2Proof.Machine Sys2Proof.Reference

/-! ### Encoding -/

/-- R70, R53, R73, R74, R78: the bytes of every command, with every operand at every value, decode to it. -/
def Obligations.EncodedBytesDecodeToTheCommand : Prop :=
  ∀ i : Instr, decodeBytes (encodeBytes i) = .instr i

/-- R53, R70, R73: byte strings written out from the spec's encodings decode to the commands they stand for. -/
def Obligations.WrittenOutBytesDecodeRight : Prop :=
  decodeBytes [0x00, 0x39, 0x30, 0, 0, 0, 0, 0, 0, 0, 0, 0, 0, 0, 0, 0, 0, 0x85, 0x1A, 0, 0]
      = .instr (.noiseRaw1d 12345#32 6789#32) ∧
  decodeBytes [0x13, 1, 0, 0, 0, 2, 0, 0, 0, 3, 0, 0, 0, 4, 0, 0, 0, 0, 0, 0, 0]
      = .instr (.fold4d 1#32 2#32 3#32 4#32) ∧
  decodeBytes [0x46, 1, 0, 0, 0, 2, 0, 0, 0, 3, 0, 0, 0, 0, 0, 0, 0, 4, 0, 0, 0]
      = .instr (.noiseZeroOne3d .binary32 1#32 2#32 3#32 4#32) ∧
  decodeBytes [0x28, 0xF6, 0x8C, 0xA1, 0xE1, 0, 0, 0, 0, 0, 0, 0, 0, 0, 0, 0, 0, 0, 0, 0, 0]
      = .instr (.mapNegOne .binary64 0xE1A18CF6#32) ∧
  decodeBytes [0x80, 1, 0, 0, 0, 0, 0, 0, 0, 0, 0, 0, 0, 0, 0, 0, 0, 0, 0, 0, 0] = .illegal .reservedBit

/-- R73, R74: a request decodes to a command exactly when its `cmd` matches exactly one row of the opcode table, and
any other `cmd` matches none. -/
def Obligations.LegalCmdMatchesExactlyOneRow : Prop :=
  ∀ r : Request,
    ((∃ i, decode r = .instr i) ↔ rowsMatching r.cmd = 1) ∧
    ((∃ why, decode r = .illegal why) ↔ rowsMatching r.cmd = 0)

/-- R75: 228 values of `cmd` are reserved, in groups of the sizes it gives, and each of them answers `data = 0`,
`err = 1` and changes nothing else, whatever the other fields. -/
def Obligations.ReservedCmdAnswersTheError : Prop :=
  (allCmds.filter reserved).length = 228 ∧
  (allCmds.filter fun c => c.extractLsb' 7 1 = 1#1).length = 128 ∧
  (allCmds.filter fun c => c.extractLsb' 7 1 = 0#1 ∧ c.extractLsb' 4 2 = 3#2).length = 32 ∧
  (allCmds.filter fun c => c.extractLsb' 7 1 = 0#1 ∧ c.extractLsb' 4 2 = 0#2 ∧ c.extractLsb' 2 2 = 3#2).length = 8 ∧
  (allCmds.filter fun c => c.extractLsb' 7 1 = 0#1 ∧ c.extractLsb' 4 2 = 0#2 ∧ reservedGroup c).length = 12 ∧
  (allCmds.filter fun c => c.extractLsb' 7 1 = 0#1 ∧ c.extractLsb' 4 2 = 1#2 ∧ reservedGroup c).length = 28 ∧
  (allCmds.filter fun c => c.extractLsb' 7 1 = 0#1 ∧ c.extractLsb' 4 2 = 2#2 ∧ reservedGroup c).length = 28 ∧
  (∀ c : BitVec 8, legal c = !reserved c) ∧
  ∀ (r : Request) (s : State), reserved r.cmd = true →
    execRequest r s = .next { s with q := s.q ++ [{ data := 0#64, err := 1#1, age := 0 }] }

/-- R201: an illegal request that is accepted takes its place at the end of `Q` like any other, with `data = 0` and
`err = 1`; the entries before it are delivered and aged as for any request, and it waits no longer. -/
def Obligations.IllegalRequestTakesItsPlace : Prop :=
  ∀ (s : State) (r : Request) (take : Bool),
    s.pinsNow = { rst := false, reqValid := some true, req := some r, rspReady := some take } →
    (s.waiting = none ∨ s.waiting = some (some r)) → s.q.length < s.params.maxInflight → legal r.cmd = false →
    ∃ t, step s = .next t ∧ t.params = s.params ∧ t.waiting = none ∧
      t.q = (if take && (s.outputs false).rspValid then s.q.tail else s.q).map (fun e => { e with age := e.age + 1 })
        ++ [{ data := 0#64, err := 1#1, age := 0 }]

/-- R72: two requests of one `cmd` that agree on the fields it reads decode alike and get the same response. -/
def Obligations.UnreadFieldsNeverMatter : Prop :=
  ∀ (p : Params) (a b : Request), a.cmd = b.cmd → a.x = b.x → (readsY a.cmd → a.y = b.y) → (readsZ a.cmd → a.z = b.z) →
    (readsT a.cmd → a.t = b.t) → (readsSeed a.cmd → a.seed = b.seed) →
    decode a = decode b ∧ responseOf p a = responseOf p b

/-- R53, R70: the fields of a packed request; byte `k` of a packed word is `W[8k+7:8k]`; the 21 bytes of a request carry
it back. Of the last byte of a response only the bit that `RSP` has is stated (log entry 11). -/
def Obligations.PackedWordsAreLittleEndian : Prop :=
  (∀ rsp : Response, (∀ k < 8, rsp.toBytes[k]? = some (rsp.pack.extractLsb' (8 * k) 8)) ∧
    (rsp.toBytes[8]?).map (fun b => b.getLsbD 0) = some (rsp.pack.getLsbD 64)) ∧
  ∀ r : Request,
    r.toBytes.length = 21 ∧ (∀ k < 21, r.toBytes[k]? = some (r.pack.extractLsb' (8 * k) 8)) ∧
    r.pack.extractLsb' 0 8 = r.cmd ∧ r.pack.extractLsb' 8 32 = r.x ∧ r.pack.extractLsb' 40 32 = r.y ∧
    r.pack.extractLsb' 72 32 = r.z ∧ r.pack.extractLsb' 104 32 = r.t ∧ r.pack.extractLsb' 136 32 = r.seed ∧
    Request.ofBytes r.toBytes = some r

/-- R76: `RSP = {err, data}`; raw noise and binary32 results leave `data[63:32]` zero, in every state. -/
def Obligations.ResponseLayout : Prop :=
  (∀ rsp : Response, rsp.pack.extractLsb' 0 64 = rsp.data ∧ rsp.pack.extractLsb' 64 1 = rsp.err ∧
    Response.unpack rsp.pack = rsp) ∧
  ∀ (i : Instr) (s : State), answersInLowHalf i = true →
    ∃ d : Data, exec i s = .next (answered s d) ∧ d.extractLsb' 32 32 = 0#32

/-- R78, R80: whatever the assembler accepts is the encoding of a legal command: its unread fields are 0. -/
def Obligations.AssembledCommandIsCanonical : Prop :=
  ∀ (w : Written) (r : Request), assemble w = .request r → ∃ i, decode r = .instr i ∧ encode i = r

/-- R78, R80: a decimal operand becomes the two's-complement pattern of its value, and a hexadecimal one the pattern its
digits name, the last digit lowest; for each of the 28 written names, the operands are written in the order of the source's
signatures, each fills its field, and the other fields are 0. -/
def Obligations.OperandsFillTheirFields : Prop :=
  (∀ n : Int, literalWord (.dec n) = BitVec.ofInt 32 n) ∧
  (∀ ds : List (Fin 16), ds.length ≤ 8 → ∀ k < 8,
    (literalWord (.hex ds)).extractLsb' (4 * k) 4 = BitVec.ofNat 4 (ds.reverse.getD k 0).val) ∧
  (∀ a b c d e : Literal, operandOk false a → operandOk false b → operandOk false c → operandOk false d →
    operandOk false e →
    (∀ p ∈ noise1dNames, assemble ⟨p.1, [a, e]⟩ = .request ⟨p.2, literalWord a, 0, 0, 0, literalWord e⟩) ∧
    (∀ p ∈ noise2dNames, assemble ⟨p.1, [a, b, e]⟩
      = .request ⟨p.2, literalWord a, literalWord b, 0, 0, literalWord e⟩) ∧
    (∀ p ∈ noise3dNames, assemble ⟨p.1, [a, b, c, e]⟩
      = .request ⟨p.2, literalWord a, literalWord b, literalWord c, 0, literalWord e⟩) ∧
    (∀ p ∈ noise4dNames, assemble ⟨p.1, [a, b, c, d, e]⟩
      = .request ⟨p.2, literalWord a, literalWord b, literalWord c, literalWord d, literalWord e⟩) ∧
    assemble ⟨"fold.1d", [a]⟩ = .request ⟨0x10#8, literalWord a, 0, 0, 0, 0⟩ ∧
    assemble ⟨"fold.2d", [a, b]⟩ = .request ⟨0x11#8, literalWord a, literalWord b, 0, 0, 0⟩ ∧
    assemble ⟨"fold.3d", [a, b, c]⟩ = .request ⟨0x12#8, literalWord a, literalWord b, literalWord c, 0, 0⟩ ∧
    assemble ⟨"fold.4d", [a, b, c, d]⟩
      = .request ⟨0x13#8, literalWord a, literalWord b, literalWord c, literalWord d, 0⟩) ∧
  ∀ n : Literal, operandOk true n → ∀ p ∈ mapNames, assemble ⟨p.1, [n]⟩ = .request ⟨p.2, literalWord n, 0, 0, 0, 0⟩

/-- R79: each alias assembles as the command it expands to, with the same operands. -/
def Obligations.AliasesExpand : Prop :=
  ∀ ops : List Literal,
    assemble ⟨"mix", ops⟩ = assemble ⟨"noise.raw.1d", ops⟩ ∧
    assemble ⟨"noiseRaw1D", ops⟩ = assemble ⟨"noise.raw.1d", ops⟩ ∧
    assemble ⟨"noiseRaw2D", ops⟩ = assemble ⟨"noise.raw.2d", ops⟩ ∧
    assemble ⟨"noiseRaw3D", ops⟩ = assemble ⟨"noise.raw.3d", ops⟩ ∧
    assemble ⟨"noiseRaw4D", ops⟩ = assemble ⟨"noise.raw.4d", ops⟩ ∧
    assemble ⟨"noiseZeroToOne1D", ops⟩ = assemble ⟨"noise.z1.1d.d", ops⟩ ∧
    assemble ⟨"noiseZeroToOne2D", ops⟩ = assemble ⟨"noise.z1.2d.d", ops⟩ ∧
    assemble ⟨"noiseZeroToOne3D", ops⟩ = assemble ⟨"noise.z1.3d.d", ops⟩ ∧
    assemble ⟨"noiseZeroToOne4D", ops⟩ = assemble ⟨"noise.z1.4d.d", ops⟩ ∧
    assemble ⟨"noiseNegOneToOne1D", ops⟩ = assemble ⟨"noise.n1.1d.d", ops⟩ ∧
    assemble ⟨"noiseNegOneToOne2D", ops⟩ = assemble ⟨"noise.n1.2d.d", ops⟩ ∧
    assemble ⟨"noiseNegOneToOne3D", ops⟩ = assemble ⟨"noise.n1.3d.d", ops⟩ ∧
    assemble ⟨"noiseNegOneToOne4D", ops⟩ = assemble ⟨"noise.n1.4d.d", ops⟩ ∧
    assemble ⟨"toZeroOne", ops⟩ = assemble ⟨"map.z1.d", ops⟩ ∧
    assemble ⟨"toNegOneOne", ops⟩ = assemble ⟨"map.n1.d", ops⟩

/-- R78: for every name the assembler knows, it rejects any other operand count, and any operand that is a decimal out of
its range or a hexadecimal without digits or with more than eight. -/
def Obligations.AssemblerRejectsOtherOperands : Prop :=
  ∀ (w : Written) (cmd : BitVec 8), cmdOfName w.name = some cmd →
    (w.operands.length ≠ operandCountOf cmd → assemble w = .rejected .operandCount) ∧
    (w.operands.length = operandCountOf cmd → (∃ o ∈ w.operands, ¬ operandOk (isMapCmd cmd) o) →
      assemble w = .rejected .badOperand)

/-! ### Commands -/

/-- R106: `noise.raw.1d` is `cmd = 0x00`, reads `x` and `seed`, and answers the hash of R102 of the index. -/
def Obligations.NoiseRaw1dHashesTheIndex : Prop :=
  ∀ (r : Request) (s : State), r.cmd = 0x00#8 →
    decode r = .instr (.noiseRaw1d r.x r.seed) ∧
    exec (.noiseRaw1d r.x r.seed) s = .next (answered s (BitVec.ofNat 64 (noiseNat r.x.toNat r.seed)))

/-- R138, R139, R140: the raw NOISE commands of 2, 3 and 4 dimensions hash the fold value, which is not wrapped first. -/
def Obligations.NoiseRawHashesTheFold : Prop :=
  ∀ (r : Request) (s : State),
    (r.cmd = 0x01#8 →
      decode r = .instr (.noiseRaw2d r.x r.y r.seed) ∧
      exec (.noiseRaw2d r.x r.y r.seed) s
        = .next (answered s (BitVec.ofNat 64 (noiseNat (foldInt2 r.x r.y) r.seed)))) ∧
    (r.cmd = 0x02#8 →
      decode r = .instr (.noiseRaw3d r.x r.y r.z r.seed) ∧
      exec (.noiseRaw3d r.x r.y r.z r.seed) s
        = .next (answered s (BitVec.ofNat 64 (noiseNat (foldInt3 r.x r.y r.z) r.seed)))) ∧
    (r.cmd = 0x03#8 →
      decode r = .instr (.noiseRaw4d r.x r.y r.z r.t r.seed) ∧
      exec (.noiseRaw4d r.x r.y r.z r.t r.seed) s
        = .next (answered s (BitVec.ofNat 64 (noiseNat (foldInt4 r.x r.y r.z r.t) r.seed))))

/-- R134 to R137: the FOLD commands answer the exact fold value as 64-bit two's complement, whatever `seed` is. -/
def Obligations.FoldCommandsAnswerTheExactSum : Prop :=
  ∀ (r : Request) (s : State),
    (r.cmd = 0x10#8 →
      decode r = .instr (.fold1d r.x) ∧ exec (.fold1d r.x) s = .next (answered s (BitVec.ofInt 64 r.x.toInt))) ∧
    (r.cmd = 0x11#8 →
      decode r = .instr (.fold2d r.x r.y) ∧
      exec (.fold2d r.x r.y) s = .next (answered s (BitVec.ofInt 64 (foldInt2 r.x r.y)))) ∧
    (r.cmd = 0x12#8 →
      decode r = .instr (.fold3d r.x r.y r.z) ∧
      exec (.fold3d r.x r.y r.z) s = .next (answered s (BitVec.ofInt 64 (foldInt3 r.x r.y r.z)))) ∧
    (r.cmd = 0x13#8 →
      decode r = .instr (.fold4d r.x r.y r.z r.t) ∧
      exec (.fold4d r.x r.y r.z r.t) s = .next (answered s (BitVec.ofInt 64 (foldInt4 r.x r.y r.z r.t))))

/-- R164, R165: the MAP commands convert the word in `x`; `cmd[6]` chooses the format, and a binary32 result is
zero-extended. The neg-one-to-one form follows the machine's `NEG_MAP`. -/
def Obligations.MapCommandsConvertTheOperand : Prop :=
  ∀ (f : Prec) (r : Request) (s : State),
    (r.cmd = byPrec 0x24#8 0x64#8 f →
      decode r = .instr (.mapZeroOne f r.x) ∧
      exec (.mapZeroOne f r.x) s = .next (answered s ((toZeroOne f r.x).zeroExtend 64))) ∧
    (r.cmd = byPrec 0x28#8 0x68#8 f →
      decode r = .instr (.mapNegOne f r.x) ∧
      exec (.mapNegOne f r.x) s = .next (answered s ((toNegOne s.params.negMap f r.x).zeroExtend 64)))

/-- R166 to R169: the zero-to-one NOISE commands convert the raw noise value of their dimension. -/
def Obligations.ZeroOneNoiseConvertsTheNoise : Prop :=
  ∀ (f : Prec) (r : Request) (s : State),
    (r.cmd = byPrec 0x04#8 0x44#8 f →
      decode r = .instr (.noiseZeroOne1d f r.x r.seed) ∧
      exec (.noiseZeroOne1d f r.x r.seed) s
        = .next (answered s ((toZeroOne f (noiseWord r.x.toNat r.seed)).zeroExtend 64))) ∧
    (r.cmd = byPrec 0x05#8 0x45#8 f →
      decode r = .instr (.noiseZeroOne2d f r.x r.y r.seed) ∧
      exec (.noiseZeroOne2d f r.x r.y r.seed) s
        = .next (answered s ((toZeroOne f (noiseWord (foldInt2 r.x r.y) r.seed)).zeroExtend 64))) ∧
    (r.cmd = byPrec 0x06#8 0x46#8 f →
      decode r = .instr (.noiseZeroOne3d f r.x r.y r.z r.seed) ∧
      exec (.noiseZeroOne3d f r.x r.y r.z r.seed) s
        = .next (answered s ((toZeroOne f (noiseWord (foldInt3 r.x r.y r.z) r.seed)).zeroExtend 64))) ∧
    (r.cmd = byPrec 0x07#8 0x47#8 f →
      decode r = .instr (.noiseZeroOne4d f r.x r.y r.z r.t r.seed) ∧
      exec (.noiseZeroOne4d f r.x r.y r.z r.t r.seed) s
        = .next (answered s ((toZeroOne f (noiseWord (foldInt4 r.x r.y r.z r.t) r.seed)).zeroExtend 64)))

/-- R170 to R173: the neg-one-to-one NOISE commands convert the raw noise value of their dimension under the machine's
`NEG_MAP`, whichever reading it is. -/
def Obligations.NegOneNoiseConvertsTheNoise : Prop :=
  ∀ (f : Prec) (r : Request) (s : State),
    (r.cmd = byPrec 0x08#8 0x48#8 f →
      decode r = .instr (.noiseNegOne1d f r.x r.seed) ∧
      exec (.noiseNegOne1d f r.x r.seed) s
        = .next (answered s ((toNegOne s.params.negMap f (noiseWord r.x.toNat r.seed)).zeroExtend 64))) ∧
    (r.cmd = byPrec 0x09#8 0x49#8 f →
      decode r = .instr (.noiseNegOne2d f r.x r.y r.seed) ∧
      exec (.noiseNegOne2d f r.x r.y r.seed) s
        = .next (answered s ((toNegOne s.params.negMap f (noiseWord (foldInt2 r.x r.y) r.seed)).zeroExtend 64))) ∧
    (r.cmd = byPrec 0x0A#8 0x4A#8 f →
      decode r = .instr (.noiseNegOne3d f r.x r.y r.z r.seed) ∧
      exec (.noiseNegOne3d f r.x r.y r.z r.seed) s
        = .next (answered s ((toNegOne s.params.negMap f (noiseWord (foldInt3 r.x r.y r.z) r.seed)).zeroExtend 64))) ∧
    (r.cmd = byPrec 0x0B#8 0x4B#8 f →
      decode r = .instr (.noiseNegOne4d f r.x r.y r.z r.t r.seed) ∧
      exec (.noiseNegOne4d f r.x r.y r.z r.t r.seed) s
        = .next (answered s ((toNegOne s.params.negMap f (noiseWord (foldInt4 r.x r.y r.z r.t) r.seed)).zeroExtend 64)))

/-- R200: for every legal `cmd` and every value of the other fields, in every state, the response has `err = 0`. -/
def Obligations.LegalCommandsNeverFail : Prop :=
  ∀ (r : Request) (s : State), legal r.cmd = true → ∃ d : Data, execRequest r s = .next (answered s d)

/-- R20, R23, R34: what every one of the eighteen commands leaves unchanged: all of the state but the end of `Q`. -/
def Obligations.CommandsOnlyAppendToTheQueue : Prop :=
  ∀ (i : Instr) (s t : State), exec i s = .next t →
    t.params = s.params ∧ t.waiting = s.waiting ∧ t.pins = s.pins ∧ t.cycle = s.cycle ∧ t.log = s.log ∧
    ∃ d : Data, t.q = s.q ++ [{ data := d, err := 0#1, age := 0 }]

/-- R12, R20, R56: the response to a request is a function of the request (and of `NEG_MAP`): the same in every state,
and the same for every `LATENCY` and `MAX_INFLIGHT`. -/
def Obligations.ResponseDependsOnTheRequestAlone : Prop :=
  ∀ (r : Request) (m : NegMap), ∃ rsp : Response,
    (∀ latency maxInflight, responseOf ⟨latency, maxInflight, m⟩ r = some rsp) ∧
    ∀ s : State, s.params.negMap = m → execRequest r s = .next { s with q := s.q ++ [freshEntry rsp] }

/-- D8, R161: the answers of the raw, fold and zero-to-one commands do not depend on `NEG_MAP`, nor on anything else in
the state. -/
def Obligations.NegMapOnlyTouchesTheNegOneForms : Prop :=
  ∀ i : Instr, isNegOne i = false → ∃ d : Data, ∀ s : State, exec i s = .next (answered s d)

/-! ### The functions of the three stages -/

/-- R100: `sanitizeSeed(s)` is `abs(sint32(s))`; two's-complement negation when `s[31] = 1`; `0x80000000` is its own; equal
for `s` and `-s`; never above `0x80000000`. -/
def Obligations.SanitizeSeedIsTheAbsoluteValue : Prop :=
  (∀ s : Word, (sanitizeSeed s).toNat = s.toInt.natAbs % 4294967296 ∧
    sanitizeSeed s = (if s.msb then -s else s) ∧ sanitizeSeed (-s) = sanitizeSeed s ∧
    (sanitizeSeed s).toNat ≤ 0x80000000) ∧
  sanitizeSeed 0x80000000#32 = 0x80000000#32 ∧ sanitizeSeed (-7#32) = 7#32

/-- R105 (a): for a fixed seed, the hash is a bijection of the position. -/
def Obligations.MixIsABijectionOfThePosition : Prop :=
  ∀ s : Word, Function.Bijective fun p : Word => mix p s

/-- R105 (b), (c): for a fixed position, the hash is a bijection of the sanitized seed, so two seeds give equal outputs
exactly when their absolute values are equal. -/
def Obligations.MixSeparatesSeedsByAbsoluteValue : Prop :=
  ∀ p : Word, (Function.Bijective fun u : Word => mixScramble (mixEnter p u)) ∧
    ∀ s s' : Word, mix p s = mix p s' ↔ s.toInt.natAbs = s'.toInt.natAbs

/-- R130: a term is the exact product reduced to `[0, 2^32-1]`, equal to the low 32 bits of `P * uint(c)`, with the corner
cases the rule gives. -/
def Obligations.FoldTermIsTheReducedProduct : Prop :=
  (∀ P ∈ [(198491317 : Int), 6542989, 357239], ∀ c : Word,
    foldTerm P c = P * c.toInt % 4294967296 ∧ 0 ≤ foldTerm P c ∧ foldTerm P c ≤ 4294967295 ∧
    foldTerm P c = P * (c.toNat : Int) % 4294967296 ∧
    foldTerm P 0#32 = 0 ∧ foldTerm P 0x80000000#32 = 0x80000000) ∧
  foldTerm 198491317 0x7FFFFFFF#32 = 0x742B434B

/-- R132: the range of each fold value, every bound reached, and every value within a 35-bit two's-complement integer. -/
def Obligations.FoldRangesAreReached : Prop :=
  (∀ x y z t : Word,
    (-2147483648 ≤ fold1 x ∧ fold1 x ≤ 2147483647) ∧
    (-2147483648 ≤ fold2 x y ∧ fold2 x y ≤ 6442450942) ∧
    (-2147483648 ≤ fold3 x y z ∧ fold3 x y z ≤ 10737418237) ∧
    (-2147483648 ≤ fold4 x y z t ∧ fold4 x y z t ≤ 15032385532) ∧
    (BitVec.ofInt 35 (fold4 x y z t)).toInt = fold4 x y z t) ∧
  (∃ x, fold1 x = -2147483648) ∧ (∃ x, fold1 x = 2147483647) ∧
  (∃ x y, fold2 x y = -2147483648) ∧ (∃ x y, fold2 x y = 6442450942) ∧
  (∃ x y z, fold3 x y z = -2147483648) ∧ (∃ x y z, fold3 x y z = 10737418237) ∧
  (∃ x y z t, fold4 x y z t = -2147483648) ∧ (∃ x y z t, fold4 x y z t = 15032385532)

/-- R133: wrapping the fold sum, or not, changes no hash: a 32-bit datapath carries the position to the mixer. -/
def Obligations.FoldMayWrapOnItsWayToTheMixer : Prop :=
  ∀ x y z t seed : Word,
    noise2 x y seed = mix (x + 198491317#32 * y) seed ∧
    noise3 x y z seed = mix (x + 198491317#32 * y + 6542989#32 * z) seed ∧
    noise4 x y z t seed = mix (x + 198491317#32 * y + 6542989#32 * z + 357239#32 * t) seed ∧
    ((fold4 x y z t * 0xD2A80A3F) % 4294967296).toNat = ((u32 (fold4 x y z t)) * 0xD2A80A3F#32).toNat

/-- R141 (a): a last coordinate of 0 adds nothing, for the fold and in all three forms of the NOISE commands. -/
def Obligations.ZeroCoordinateAddsNothing : Prop :=
  ∀ (f : Prec) (x y z seed : Word) (s : State),
    (fold2 x 0 = fold1 x ∧ fold3 x y 0 = fold2 x y ∧ fold4 x y z 0 = fold3 x y z) ∧
    (exec (.fold2d x 0) s = exec (.fold1d x) s ∧ exec (.fold3d x y 0) s = exec (.fold2d x y) s ∧
      exec (.fold4d x y z 0) s = exec (.fold3d x y z) s) ∧
    (exec (.noiseRaw2d x 0 seed) s = exec (.noiseRaw1d x seed) s ∧
      exec (.noiseRaw3d x y 0 seed) s = exec (.noiseRaw2d x y seed) s ∧
      exec (.noiseRaw4d x y z 0 seed) s = exec (.noiseRaw3d x y z seed) s) ∧
    (exec (.noiseZeroOne2d f x 0 seed) s = exec (.noiseZeroOne1d f x seed) s ∧
      exec (.noiseZeroOne3d f x y 0 seed) s = exec (.noiseZeroOne2d f x y seed) s ∧
      exec (.noiseZeroOne4d f x y z 0 seed) s = exec (.noiseZeroOne3d f x y z seed) s) ∧
    (exec (.noiseNegOne2d f x 0 seed) s = exec (.noiseNegOne1d f x seed) s ∧
      exec (.noiseNegOne3d f x y 0 seed) s = exec (.noiseNegOne2d f x y seed) s ∧
      exec (.noiseNegOne4d f x y z 0 seed) s = exec (.noiseNegOne3d f x y z seed) s)

/-- R141 (b): for fixed `x` and `seed`, `noise.raw.2d` is a bijection of `y`: its answers differ for different `y`, and
every noise value is one of them. -/
def Obligations.Noise2dIsABijectionOfY : Prop :=
  ∀ (x seed : Word) (s : State),
    (∀ y y' : Word, exec (.noiseRaw2d x y seed) s = exec (.noiseRaw2d x y' seed) s → y = y') ∧
    ∀ n : Word, ∃ y : Word, exec (.noiseRaw2d x y seed) s = .next (answered s (n.zeroExtend 64))

/-- R141 (c): distinct 3D and 4D coordinates can give equal noise. -/
def Obligations.DistinctCoordinatesCanCollide : Prop :=
  noise4 0xFFFFFFFF#32 0xFFFFFFFF#32 0xFFFFFFFF#32 0xFFFFFFFF#32 0xFFFFFFFF#32
      = noise4 0x7FFFFFFF#32 0x7FFFFFFF#32 0x7FFFFFFF#32 0x7FFFFFFF#32 0xFFFFFFFF#32 ∧
  noise3 6542989#32 0#32 0xFFFFFFFF#32 9#32 = noise3 0#32 0#32 0#32 9#32

/-! ### Float results -/

/-- R160, R10: zero-to-one is the exact quotient rounded once: no other value of the format is as near. -/
def Obligations.ZeroOneIsCorrectlyRounded : Prop :=
  ∀ (f : Prec) (n : Word),
    IsNearest f (zeroOneQuot n) (toZeroOne f n) ∧ (zeroOneQuot n = 0 → toZeroOne f n = 0)

/-- R161, R10: under each reading of `NEG_MAP`, neg-one-to-one is the exact quotient rounded once: no other value of the
format is as near. -/
def Obligations.NegOneIsCorrectlyRounded : Prop :=
  ∀ (m : NegMap) (f : Prec) (n : Word),
    IsNearest f (negOneQuot m n) (toNegOne m f n) ∧ (negOneQuot m n = 0 → toNegOne m f n = 0)

/-- R162: a float result is normal or the pattern 0, which stands for a zero quotient alone: never NaN, infinite,
subnormal or `-0.0`. -/
def Obligations.FloatResultsAreNormalOrPlusZero : Prop :=
  ∀ (m : NegMap) (f : Prec) (n : Word),
    (toZeroOne f n = 0 ∨ FloatNormal f (toZeroOne f n)) ∧ (toZeroOne f n = 0 ↔ n = 0#32) ∧
    (toNegOne m f n = 0 ∨ FloatNormal f (toNegOne m f n)) ∧ (toNegOne m f n = 0 ↔ negNumRef m n = 0)

/-- R163 (a): `toZeroOne` lies in `[0, 1]`; 0 gives `+0.0` and `0xFFFFFFFF` exactly 1. -/
def Obligations.ZeroOneStaysInRange : Prop :=
  ∀ f : Prec,
    (∀ n : Word, 0 ≤ floatValue f (toZeroOne f n) ∧ floatValue f (toZeroOne f n) ≤ 1) ∧
    toZeroOne f 0#32 = 0 ∧ floatValue f (toZeroOne f 0xFFFFFFFF#32) = 1

/-- R163 (b): under `FOLDED`, `toNegOneOne` lies in `[-1, 1]`, and its four end points are exact. -/
def Obligations.NegOneFoldedStaysInRange : Prop :=
  ∀ f : Prec,
    (∀ n : Word, -1 ≤ floatValue f (toNegOne .folded f n) ∧ floatValue f (toNegOne .folded f n) ≤ 1) ∧
    floatValue f (toNegOne .folded f 0x7FFFFFFF#32) = 1 ∧ floatValue f (toNegOne .folded f 0x80000000#32) = -1 ∧
    toNegOne .folded f 0#32 = 0 ∧ toNegOne .folded f 0xFFFFFFFF#32 = 0

/-- R163 (c), (d): where the other readings of `NEG_MAP` lead: `SIGNED` leaves `[-1, 1]` in binary64 alone, and
`LITERAL` lies in `[-2.0000000005, 0]`. -/
def Obligations.OtherReadingsLeaveTheRange : Prop :=
  toNegOne .signed .binary64 0x80000000#32 = 0xBFF0000000200000#64 ∧
  toNegOne .signed .binary32 0x80000000#32 = 0xBF800000#32 ∧
  floatValue .binary64 (toNegOne .signed .binary64 0x80000000#32) < -1 ∧
  (∀ n : Word, -1 ≤ floatValue .binary32 (toNegOne .signed .binary32 n) ∧
    floatValue .binary32 (toNegOne .signed .binary32 n) ≤ 1) ∧
  (∀ (f : Prec) (n : Word), -(20000000005 / 10000000000) ≤ floatValue f (toNegOne .literal f n) ∧
    floatValue f (toNegOne .literal f n) ≤ 0) ∧
  toNegOne .literal .binary64 0#32 = 0xC000000000100000#64

/-- R163: rounding to nearest is monotone, so a larger noise value never gives a smaller zero-to-one result. -/
def Obligations.ZeroOneIsMonotone : Prop :=
  ∀ (f : Prec) (n n' : Word), n.toNat ≤ n'.toNat → floatValue f (toZeroOne f n) ≤ floatValue f (toZeroOne f n')

/-- R164, R165: the corner cases that single rounding decides. -/
def Obligations.SingleRoundingCornerCases : Prop :=
  toZeroOne .binary32 0xFFFFFF7F#32 = 0x3F7FFFFF#32 ∧ toZeroOne .binary32 0xFFFFFD7F#32 = 0x3F7FFFFD#32 ∧
  toNegOne .folded .binary32 0x7FFFFFBF#32 = 0x3F7FFFFF#32 ∧
  toNegOne .folded .binary32 0x80000040#32 = 0xBF7FFFFF#32 ∧
  toZeroOne .binary64 0x80000000#32 = 0x3FE0000000100000#64 ∧
  toNegOne .folded .binary64 0x00000001#32 = 0x3E00000000200000#64

/-! ### The queue and the ports -/

/-- R37, R231: right after reset `Q` is empty, the block can accept a request and offers no response; while `rst = 1` it
does neither; the wired constants, primes and divisors are the values of R24 to R26. -/
def Obligations.ResetLeavesAnEmptyQueue : Prop :=
  State.reset.q = [] ∧
  (State.reset.outputs false).reqReady = true ∧ (State.reset.outputs false).rspValid = false ∧
  (State.reset.outputs true).reqReady = false ∧ (State.reset.outputs true).rspValid = false ∧
  (mixC1 = 0xD2A80A3F#32 ∧ mixC1 = 3534228031#32) ∧ (mixC2 = 0xA884F197#32 ∧ mixC2 = 2827284887#32) ∧
  (mixC3 = 0x6C736F4B#32 ∧ mixC3 = 1819504459#32) ∧ (mixC4 = 0xB79F3ABB#32 ∧ mixC4 = 3080665787#32) ∧
  (mixC5 = 0x1B56C4F5#32 ∧ mixC5 = 458671349#32) ∧
  foldP1 = 0x0BD4BCB5 ∧ foldP2 = 0x0063D68D ∧ foldP3 = 0x00057377 ∧
  unsignedMax = 0xFFFFFFFF ∧ signedMax = 0x7FFFFFFF

/-- R230: from any state, a rising edge with `rst = 1` empties `Q`; `req_ready` and `rsp_valid` are 0 meanwhile, so nothing
is accepted and nothing delivered. -/
def Obligations.ResetEdgeDiscardsEverything : Prop :=
  ∀ s : State, s.pinsNow.rst = true → Held s →
    (s.outputs true).reqReady = false ∧ (s.outputs true).rspValid = false ∧
    ∃ t, step s = .next t ∧ t.q = [] ∧ t.params = s.params

/-- R34, R74: an edge that accepts a request runs the command the decoder reads from it, on the state in which the
delivery, the ages and the request channel of that edge have been settled. `pins`, `cycle` and `log` are the model's own
fields (its choice: log entries 3, 4 and 5). -/
def Obligations.StepRunsTheDecodedCommand : Prop :=
  ∀ (s : State) (r : Request) (take : Bool) (i : Instr),
    s.pinsNow = { rst := false, reqValid := some true, req := some r, rspReady := some take } →
    (s.waiting = none ∨ s.waiting = some (some r)) → s.q.length < s.params.maxInflight → decode r = .instr i →
    step s = exec i
      { params := s.params
        q := (if take && (s.outputs false).rspValid then s.q.tail else s.q).map Entry.older
        waiting := none
        pins := s.pins.tail
        cycle := s.cycle + 1
        log := s.log ++ (if take && (s.outputs false).rspValid then [.deliver s.headResponse] else []) ++ [.accept r] }

/-- R34, whole: the outputs as functions of `Q`, and what a rising edge with `rst = 0` does to `Q`: a delivery, then the
ages, then an acceptance, which may all happen at one edge. -/
def Obligations.EdgeFollowsTheQueueRules : Prop :=
  ∀ (s : State) (valid take : Bool) (r : Request),
    s.pinsNow = { rst := false, reqValid := some valid, req := some r, rspReady := some take } → Held s →
    ((s.outputs false).reqReady = true ↔ s.q.length < s.params.maxInflight) ∧
    ((s.outputs false).rspValid = true ↔ ∃ e rest, s.q = e :: rest ∧ s.params.latency ≤ e.age) ∧
    (∀ e rest, s.q = e :: rest → s.params.latency ≤ e.age →
      (s.outputs false).rspData = e.data ∧ (s.outputs false).rspErr = e.err) ∧
    ∃ t rsp, step s = .next t ∧ responseOf s.params r = some rsp ∧
      t.q = (if take && (s.outputs false).rspValid then s.q.tail else s.q).map
            (fun e => { e with age := e.age + 1 })
          ++ (if valid && (s.outputs false).reqReady then [freshEntry rsp] else [])

/-- R35: an offered response that is not taken stays offered, unchanged, over an edge with `rst = 0`. -/
def Obligations.OfferedResponseStays : Prop :=
  ∀ (s : State) (valid : Bool) (r : Request),
    s.pinsNow = { rst := false, reqValid := some valid, req := some r, rspReady := some false } → Held s →
    (s.outputs false).rspValid = true →
    ∃ t, step s = .next t ∧ (t.outputs false).rspValid = true ∧
      (t.outputs false).rspData = (s.outputs false).rspData ∧ (t.outputs false).rspErr = (s.outputs false).rspErr

/-- R233: what is offered while `req_ready = 0`, by a full `Q` or by `rst`, waits on the port, unknown fields too where
`rst = 1`; an accepted request, or none offered, leaves nothing waiting. That an offer made while `rst = 1` binds is the
model's reading (log entry 6), and that one of unknown fields does, and runs on, its choice (log entry 7). -/
def Obligations.UnacceptedOfferWaits : Prop :=
  ∀ (s : State) (rst valid take : Bool) (fields : Offer),
    s.pinsNow = { rst := rst, reqValid := some valid, req := fields, rspReady := some take } →
    (rst = true ∨ fields ≠ none) → Held s →
    ∃ t, step s = .next t ∧
      t.waiting = (if valid && !(s.outputs rst).reqReady then some fields else none)

/-- R202: a requester that drops or changes a waiting request, or drives unknown levels, while `rst = 0`, stops the run in
a fault. That what was offered under `rst = 1` may be what waits is the model's reading (log entry 6); that an unknown
`req_valid` counts with the unknown `req_*`, and that unknown levels stop the run also where `req_valid = 0` or
`rsp_valid = 0`, is its choice (log entry 7). -/
def Obligations.ProtocolViolationStopsTheRun : Prop :=
  (∀ (s : State) (o : Offer) (r : Request) (valid take : Bool), s.waiting = some o →
    s.pinsNow = { rst := false, reqValid := some valid, req := some r, rspReady := some take } →
    (valid = false ∨ o ≠ some r) → step s = .fault .protocolViolation) ∧
  ∀ s : State, s.pinsNow.rst = false →
    (s.pinsNow.reqValid = none ∨ s.pinsNow.req = none ∨ s.pinsNow.rspReady = none) →
    step s = .fault .unknownInput

/-- R233: so does one that drops `req_valid` or changes the fields of what it offered while `rst = 1`, where
`req_ready = 0` too (the model's reading, log entry 6), be the levels known or not (its choice, log entry 7). -/
def Obligations.ChangedOfferUnderResetStopsTheRun : Prop :=
  ∀ (s : State) (o : Offer), s.waiting = some o → s.pinsNow.rst = true →
    (s.pinsNow.reqValid ≠ some true ∨ s.pinsNow.req ≠ o) → step s = .fault .protocolViolation

/-- R202, R237: the block never stalls on its own: every edge has a next state but for the requester's two violations,
and no step is refused. That an offer binds while `rst = 1` is the model's reading (log entry 6); which unknown levels stop
a run, an unknown `req_valid` among them, and that none does while `rst = 1`, is its choice (log entry 7). -/
def Obligations.OnlyTheRequesterCanStopTheBlock : Prop :=
  ∀ s : State,
    ((∃ t, step s = .next t) ↔
      (s.pinsNow.rst = true ∨
        ((∃ v, s.pinsNow.reqValid = some v) ∧ (∃ r, s.pinsNow.req = some r) ∧ ∃ v, s.pinsNow.rspReady = some v)) ∧
      Held s) ∧
    ∀ x, step s ≠ .refused x

/-- R30, R34: the soundness of the queue is kept by every step from every sound state. -/
def Obligations.StepKeepsTheQueueSound : Prop :=
  ∀ s t : State, s.Sound → step s = .next t → t.Sound

/-- R5, R37: the state right after reset is sound, for every `LATENCY` and `MAX_INFLIGHT` of at least 1. -/
def Obligations.ResetIsSound : Prop :=
  State.reset.Sound ∧ ∀ p : Params, p.wellFormed = true → (State.resetWith p).Sound

/-- R57: every step keeps the requests accepted since the last reset matched, in order and one each, with the responses
delivered and those in `Q`. What was accepted and delivered is read from the model's own record (log entry 5). -/
def Obligations.ResponsesStayInOrder : Prop :=
  ∀ s t : State, s.InOrder → step s = .next t → t.InOrder

/-- R57, R231: the numbering starts at reset, where the model's own record is empty (log entry 5). -/
def Obligations.ResetIsInOrder : Prop := State.reset.InOrder

/-- R36: every step keeps the recorded transfers (log entry 5) a run of the transaction-level view whose `Q` is the
block's: the cycle rules refine it. -/
def Obligations.EveryRunIsATransactionRun : Prop :=
  ∀ s t : State, TransactionRun s → step s = .next t → TransactionRun t

/-- R36: the reset state is the start of a transaction-level run (log entry 5). -/
def Obligations.ResetStartsATransactionRun : Prop := TransactionRun State.reset

/-- R237: while `rst` stays 0 and `rsp_ready` 1, `LATENCY + length(Q)` edges deliver every response in `Q`, in order,
before any later one; deliveries are read from the model's own record (log entry 5). -/
def Obligations.EveryAcceptedRequestIsAnswered : Prop :=
  ∀ (s t : State) (n : Nat), n = s.params.latency + s.q.length → n ≤ s.pins.length →
    (∀ p ∈ s.pins.take n, p.rst = false ∧ p.rspReady = some true) → runSteps n s = .next t →
    s.responses <+: deliveries (t.log.drop s.log.length)

/-- R237, R238: if moreover no request is offered, the run has ended after those edges, and what it leaves is the
responses, in order, as the model's own record shows them (log entry 5). -/
def Obligations.QuietRunEnds : Prop :=
  ∀ (s : State) (n : Nat), n = s.params.latency + s.q.length → n ≤ s.pins.length → s.waiting = none →
    (∀ p ∈ s.pins.take n, p.rst = false ∧ p.reqValid = some false ∧ p.req.isSome = true ∧ p.rspReady = some true) →
    ∃ t, runSteps n s = .next t ∧ t.Finished ∧ deliveries (t.log.drop s.log.length) = s.responses

/-- R236: the handshakes do not depend on operand values: two machines whose queues hold entries of the same ages, and
whose control inputs agree, stay so. -/
def Obligations.TimingIgnoresTheData : Prop :=
  ∀ (s t s' t' : State) (rst valid take : Bool) (r r' : Request),
    s.params.latency = s'.params.latency → s.params.maxInflight = s'.params.maxInflight →
    s.q.map Entry.age = s'.q.map Entry.age →
    s.pinsNow = { rst := rst, reqValid := some valid, req := some r, rspReady := some take } →
    s'.pinsNow = { rst := rst, reqValid := some valid, req := some r', rspReady := some take } →
    step s = .next t → step s' = .next t' →
    (s.outputs rst).reqReady = (s'.outputs rst).reqReady ∧ (s.outputs rst).rspValid = (s'.outputs rst).rspValid ∧
    t.q.map Entry.age = t'.q.map Entry.age

/-- R5, R29: what every step leaves or does outside `Q`: the parameters stay, one sample of the inputs is used up, one edge
is counted, and the record only grows, by at most a delivery and an acceptance, or by a reset (the model's own fields, log
entries 1, 3, 4 and 5). -/
def Obligations.StepFrame : Prop :=
  ∀ s t : State, step s = .next t →
    t.params = s.params ∧ t.pins = s.pins.tail ∧ t.cycle = s.cycle + 1 ∧
    (∃ events, t.log = s.log ++ events ∧ events.length ≤ 2) ∧
    (s.pinsNow.rst = true → t.log = s.log ++ [.reset])

/-- R33, R238: the record is an observation only (the model's own field, log entry 5): no step reads it. -/
def Obligations.TheRecordIsNeverRead : Prop :=
  ∀ (s : State) (l : List Event),
    step { s with log := l } =
      match step s with
      | .next t => .next { t with log := l ++ t.log.drop s.log.length }
      | .fault f => .fault f
      | .refused x => .refused x
end

