-- ==== Sys2Proof/Laws/Arithmetic.lean ====
section
/-! SUPPORT. The words of the three stages as numbers: one lemma per operation, so that proofs about a stage cite these
and evaluate no 32-bit literal. -/

namespace Sys2Proof.Machine

/-! ### Readings (R7, R8) -/

theorem u32_toNat (n : Int) : (u32 n).toNat = (n % 4294967296).toNat := by
  rw [u32, BitVec.toNat_ofNat]
  omega

/-- R8: `u32(n)` read back is the Euclidean remainder. -/
theorem uint_u32 (n : Int) : uint (u32 n) = n % 4294967296 := by
  rw [uint, u32_toNat]
  omega

/-- A word is its own `u32`, by either reading. -/
theorem u32_uint (w : Word) : u32 (uint w) = w := by
  apply BitVec.eq_of_toNat_eq
  have := w.isLt
  rw [u32_toNat, uint]
  omega

theorem u32_sint32 (w : Word) : u32 (sint32 w) = w := by
  apply BitVec.eq_of_toNat_eq
  have := w.isLt
  rw [u32_toNat, sint32, BitVec.toInt_eq_toNat_bmod, Int.bmod_def]
  omega

/-- Words whose integers are congruent modulo `2^32` are equal. -/
theorem u32_congr {m n : Int} (h : m % 4294967296 = n % 4294967296) : u32 m = u32 n := by
  rw [u32, u32, h]

/-! ### The hash (R100, R102) -/

/-- R100: the magnitude of a seed, as a number. -/
theorem sanitizeSeed_toNat (s : Word) : (sanitizeSeed s).toNat = s.toInt.natAbs % 4294967296 := by
  rw [sanitizeSeed, sint32, u32_toNat]
  omega

theorem xorShift_toNat (n : Nat) (b : Word) : (xorShift n b).toNat = b.toNat ^^^ (b.toNat / 2 ^ n) := by
  rw [xorShift, BitVec.toNat_xor, BitVec.toNat_ushiftRight, Nat.shiftRight_eq_div_pow]

theorem mul_const_toNat (b : Word) (c : Nat) (hc : c < 4294967296) :
    (b * BitVec.ofNat 32 c).toNat = b.toNat * c % 4294967296 := by
  have h : c % 2 ^ 32 = c := Nat.mod_eq_of_lt (by simpa using hc)
  rw [BitVec.toNat_mul, BitVec.toNat_ofNat, h]

theorem add_const_toNat (b : Word) (c : Nat) (hc : c < 4294967296) :
    (b + BitVec.ofNat 32 c).toNat = (b.toNat + c) % 4294967296 := by
  have h : c % 2 ^ 32 = c := Nat.mod_eq_of_lt (by simpa using hc)
  rw [BitVec.toNat_add, BitVec.toNat_ofNat, h]

/-! ### The fold (R130, R131) -/

theorem foldTerm_eq_emod (p : Int) (c : Word) : foldTerm p c = p * c.toInt % 4294967296 :=
  uint_u32 _

end Sys2Proof.Machine
end

