-- ==== Sys2Proof/Laws/Assembler.lean ====
section
/-! SUPPORT. Written commands: one lemma for what a name stands for, what a number in hexadecimal digits is, and what
`assemble` answers. -/

namespace Sys2Proof.Machine

/-- A name that a table knows stands for an entry of it. -/
theorem exists_mem_of_lookup {β : Type} {name : String} {table : List (String × β)} {b : β}
    (h : table.lookup name = some b) : ∃ p ∈ table, p.2 = b := by
  induction table with
  | nil => simp at h
  | cons entry rest ih =>
    rw [List.lookup_cons] at h
    split at h
    · exact ⟨entry, by simp, by simpa using h⟩
    · obtain ⟨p, hp, hb⟩ := ih h
      exact ⟨p, by simp [hp], hb⟩

/-- A known name has the `cmd` of a row of `commandNames`. -/
theorem exists_row_of_cmdOfName {name : String} {cmd : BitVec 8} (h : cmdOfName name = some cmd) :
    ∃ p ∈ commandNames, p.2 = cmd :=
  exists_mem_of_lookup h

theorem hexNat_append (ds : List (Fin 16)) (d : Fin 16) : hexNat (ds ++ [d]) = 16 * hexNat ds + d.val := by
  simp [hexNat]

/-- So many digits name a number of so many digits. -/
theorem hexNat_lt (ds : List (Fin 16)) : hexNat ds < 16 ^ ds.length := by
  induction ds using List.reverseRecOn with
  | nil => simp [hexNat]
  | append_singleton ds d ih =>
    rw [hexNat_append]
    simp only [List.length_append, List.length_singleton, pow_succ]
    omega

/-- The digits are the number's own, the last one lowest. -/
theorem hexNat_digit (es : List (Fin 16)) (k : Nat) : hexNat es.reverse / 16 ^ k % 16 = (es.getD k 0).val := by
  induction es generalizing k with
  | nil => simp [hexNat]
  | cons d es ih =>
    rw [List.reverse_cons, hexNat_append]
    cases k with
    | zero =>
      simp only [pow_zero, Nat.div_one, List.getD_cons_zero]
      omega
    | succ k =>
      have hshift : (16 * hexNat es.reverse + d.val) / 16 = hexNat es.reverse := by omega
      rw [pow_succ', ← Nat.div_div_eq_div_mul, hshift, ih]
      simp

/-- What `assemble` answers for a name it knows. -/
theorem assemble_of_cmdOfName {w : Written} {cmd : BitVec 8} (h : cmdOfName w.name = some cmd) :
    assemble w =
      if w.operands.length ≠ (operandFields cmd).length then .rejected .operandCount
      else if w.operands.all (Literal.wellFormed (decide (cmdClass cmd = .map))) then
        .request (((operandFields cmd).zip (w.operands.map literalWord)).foldl setField ⟨cmd, 0, 0, 0, 0, 0⟩)
      else .rejected .badOperand := by
  simp only [assemble, h]

end Sys2Proof.Machine
end

