-- ==== Sys2Proof/Laws/Packing.lean ====
section
/-! SUPPORT. The packed forms and their bytes: unpacking undoes packing, and the number that little-endian bytes carry is
the word they were cut from. -/

namespace Sys2Proof

/-! ### Fields of a concatenation (R6) -/

/-- The low field of `{a, b}` is `b`. -/
theorem extract_low {v w : Nat} (a : BitVec v) (b : BitVec w) : (a ++ b).extractLsb' 0 w = b := by
  apply BitVec.eq_of_getLsbD_eq
  intro i hi
  rw [BitVec.getLsbD_extractLsb', BitVec.getLsbD_append]
  simp [hi]

/-- A field above `b` in `{a, b}` is that field of `a`. -/
theorem extract_high {v w : Nat} (a : BitVec v) (b : BitVec w) (k len start : Nat) (h : start = w + k) :
    (a ++ b).extractLsb' start len = a.extractLsb' k len := by
  subst h
  apply BitVec.eq_of_getLsbD_eq
  intro i hi
  rw [BitVec.getLsbD_extractLsb', BitVec.getLsbD_extractLsb', BitVec.getLsbD_append]
  simp [show ¬ w + k + i < w from by omega, show w + k + i - w = k + i from by omega]

/-! ### Packing -/

@[simp] theorem Request.unpack_pack (r : Request) : Request.unpack r.pack = r := by
  cases r with | mk cmd x y z t seed =>
  simp only [Request.unpack, Request.pack, Request.mk.injEq]
  refine ⟨extract_low _ _, ?_, ?_, ?_, ?_, ?_⟩
  · rw [extract_high _ _ 0 _ _ rfl]; exact extract_low _ _
  · rw [extract_high _ _ 32 _ _ rfl, extract_high _ _ 0 _ _ rfl]; exact extract_low _ _
  · rw [extract_high _ _ 64 _ _ rfl, extract_high _ _ 32 _ _ rfl, extract_high _ _ 0 _ _ rfl]; exact extract_low _ _
  · rw [extract_high _ _ 96 _ _ rfl, extract_high _ _ 64 _ _ rfl, extract_high _ _ 32 _ _ rfl,
      extract_high _ _ 0 _ _ rfl]
    exact extract_low _ _
  · rw [extract_high _ _ 128 _ _ rfl, extract_high _ _ 96 _ _ rfl, extract_high _ _ 64 _ _ rfl,
      extract_high _ _ 32 _ _ rfl, extract_high _ _ 0 _ _ rfl]
    exact BitVec.extractLsb'_eq_self

@[simp] theorem Response.unpack_pack (r : Response) : Response.unpack r.pack = r := by
  cases r with | mk data err =>
  simp only [Response.unpack, Response.pack, Response.mk.injEq]
  exact ⟨extract_low _ _, by rw [extract_high _ _ 0 _ _ rfl]; exact BitVec.extractLsb'_eq_self⟩

/-! ### Bytes -/

@[simp] theorem leBytes_length {w : Nat} (n : Nat) (v : BitVec w) : (leBytes n v).length = n := by
  simp [leBytes]

/-- Cutting off the first byte of a word. -/
theorem leBytes_succ {w : Nat} (n : Nat) (v : BitVec w) :
    leBytes (n + 1) v = v.extractLsb' 0 8 :: leBytes n (v >>> 8) := by
  simp only [leBytes, List.range_succ_eq_map, List.map_cons, List.map_map, Nat.mul_zero, List.cons.injEq, true_and]
  apply List.map_congr_left
  intro k _
  apply BitVec.eq_of_getLsbD_eq
  intro i hi
  simp only [Function.comp, BitVec.getLsbD_extractLsb', BitVec.getLsbD_ushiftRight]
  rw [show 8 * (k + 1) + i = 8 + (8 * k + i) from by omega]

/-- The number that the bytes of a word carry. -/
theorem leNat_leBytes {w : Nat} (n : Nat) (v : BitVec w) : leNat (leBytes n v) = v.toNat % 2 ^ (8 * n) := by
  induction n generalizing v with
  | zero => simp [leBytes, leNat, Nat.mod_one]
  | succ n ih =>
    rw [leBytes_succ, leNat, ih, BitVec.extractLsb'_toNat, BitVec.toNat_ushiftRight]
    rw [show 8 * (n + 1) = 8 + 8 * n from by omega, pow_add, Nat.mod_mul, Nat.shiftRight_eq_div_pow,
      Nat.shiftRight_eq_div_pow, Nat.pow_zero, Nat.div_one]
    rfl

end Sys2Proof
end

