-- ==== Sys2Proof/Laws/PerInstr.lean ====
section
/-! SUPPORT. Decoding by the fields of `cmd`, said once, and the family `RoundTrip`: what the encoder writes for a command,
the decoder reads back, field by field. -/

namespace Sys2Proof

/-- A request whose `RSV` is 0 decodes by the four other fields of its `cmd`. -/
theorem decode_of_fields {r : Request} (cmd : BitVec 8) (c : CmdClass) (f : Form) (p : Prec) (d : Dim)
    (h : r.cmd = cmd) (h0 : cmdRsv cmd = false) (hc : cmdClass cmd = c) (hf : cmdForm cmd = f) (hp : cmdPrec cmd = p)
    (hd : cmdDim cmd = d) : decode r = decodeFields r c f p d := by
  simp [decode, h, h0, hc, hf, hp, hd]

namespace Laws.RoundTrip

/-- Decoding the encoded command gives the command, with every operand at every value. -/
def Statement (i : Instr) : Prop := decode (encode i) = .instr i

theorem noiseRaw1d (x seed : Word) : Statement (.noiseRaw1d x seed) :=
  decode_of_fields 0x00#8 .noise .raw .binary64 .d1 rfl rfl rfl rfl rfl rfl

theorem noiseRaw2d (x y seed : Word) : Statement (.noiseRaw2d x y seed) :=
  decode_of_fields 0x01#8 .noise .raw .binary64 .d2 rfl rfl rfl rfl rfl rfl

theorem noiseRaw3d (x y z seed : Word) : Statement (.noiseRaw3d x y z seed) :=
  decode_of_fields 0x02#8 .noise .raw .binary64 .d3 rfl rfl rfl rfl rfl rfl

theorem noiseRaw4d (x y z t seed : Word) : Statement (.noiseRaw4d x y z t seed) :=
  decode_of_fields 0x03#8 .noise .raw .binary64 .d4 rfl rfl rfl rfl rfl rfl

theorem noiseZeroOne1d (f : Prec) (x seed : Word) : Statement (.noiseZeroOne1d f x seed) := by
  cases f
  · exact decode_of_fields 0x04#8 .noise .zeroOne .binary64 .d1 rfl rfl rfl rfl rfl rfl
  · exact decode_of_fields 0x44#8 .noise .zeroOne .binary32 .d1 rfl rfl rfl rfl rfl rfl

theorem noiseZeroOne2d (f : Prec) (x y seed : Word) : Statement (.noiseZeroOne2d f x y seed) := by
  cases f
  · exact decode_of_fields 0x05#8 .noise .zeroOne .binary64 .d2 rfl rfl rfl rfl rfl rfl
  · exact decode_of_fields 0x45#8 .noise .zeroOne .binary32 .d2 rfl rfl rfl rfl rfl rfl

theorem noiseZeroOne3d (f : Prec) (x y z seed : Word) : Statement (.noiseZeroOne3d f x y z seed) := by
  cases f
  · exact decode_of_fields 0x06#8 .noise .zeroOne .binary64 .d3 rfl rfl rfl rfl rfl rfl
  · exact decode_of_fields 0x46#8 .noise .zeroOne .binary32 .d3 rfl rfl rfl rfl rfl rfl

theorem noiseZeroOne4d (f : Prec) (x y z t seed : Word) : Statement (.noiseZeroOne4d f x y z t seed) := by
  cases f
  · exact decode_of_fields 0x07#8 .noise .zeroOne .binary64 .d4 rfl rfl rfl rfl rfl rfl
  · exact decode_of_fields 0x47#8 .noise .zeroOne .binary32 .d4 rfl rfl rfl rfl rfl rfl

theorem noiseNegOne1d (f : Prec) (x seed : Word) : Statement (.noiseNegOne1d f x seed) := by
  cases f
  · exact decode_of_fields 0x08#8 .noise .negOne .binary64 .d1 rfl rfl rfl rfl rfl rfl
  · exact decode_of_fields 0x48#8 .noise .negOne .binary32 .d1 rfl rfl rfl rfl rfl rfl

theorem noiseNegOne2d (f : Prec) (x y seed : Word) : Statement (.noiseNegOne2d f x y seed) := by
  cases f
  · exact decode_of_fields 0x09#8 .noise .negOne .binary64 .d2 rfl rfl rfl rfl rfl rfl
  · exact decode_of_fields 0x49#8 .noise .negOne .binary32 .d2 rfl rfl rfl rfl rfl rfl

theorem noiseNegOne3d (f : Prec) (x y z seed : Word) : Statement (.noiseNegOne3d f x y z seed) := by
  cases f
  · exact decode_of_fields 0x0A#8 .noise .negOne .binary64 .d3 rfl rfl rfl rfl rfl rfl
  · exact decode_of_fields 0x4A#8 .noise .negOne .binary32 .d3 rfl rfl rfl rfl rfl rfl

theorem noiseNegOne4d (f : Prec) (x y z t seed : Word) : Statement (.noiseNegOne4d f x y z t seed) := by
  cases f
  · exact decode_of_fields 0x0B#8 .noise .negOne .binary64 .d4 rfl rfl rfl rfl rfl rfl
  · exact decode_of_fields 0x4B#8 .noise .negOne .binary32 .d4 rfl rfl rfl rfl rfl rfl

theorem fold1d (x : Word) : Statement (.fold1d x) :=
  decode_of_fields 0x10#8 .fold .raw .binary64 .d1 rfl rfl rfl rfl rfl rfl

theorem fold2d (x y : Word) : Statement (.fold2d x y) :=
  decode_of_fields 0x11#8 .fold .raw .binary64 .d2 rfl rfl rfl rfl rfl rfl

theorem fold3d (x y z : Word) : Statement (.fold3d x y z) :=
  decode_of_fields 0x12#8 .fold .raw .binary64 .d3 rfl rfl rfl rfl rfl rfl

theorem fold4d (x y z t : Word) : Statement (.fold4d x y z t) :=
  decode_of_fields 0x13#8 .fold .raw .binary64 .d4 rfl rfl rfl rfl rfl rfl

theorem mapZeroOne (f : Prec) (n : Word) : Statement (.mapZeroOne f n) := by
  cases f
  · exact decode_of_fields 0x24#8 .map .zeroOne .binary64 .d1 rfl rfl rfl rfl rfl rfl
  · exact decode_of_fields 0x64#8 .map .zeroOne .binary32 .d1 rfl rfl rfl rfl rfl rfl

theorem mapNegOne (f : Prec) (n : Word) : Statement (.mapNegOne f n) := by
  cases f
  · exact decode_of_fields 0x28#8 .map .negOne .binary64 .d1 rfl rfl rfl rfl rfl rfl
  · exact decode_of_fields 0x68#8 .map .negOne .binary32 .d1 rfl rfl rfl rfl rfl rfl

end Laws.RoundTrip

end Sys2Proof
end

