-- ==== Sys2Proof/Laws/Rounding.lean ====
section
/-! SUPPORT. Exact rational rounding (R10), one lemma per operation: the exponent of a quotient, the rounded significand, and
the number that a packed pattern stands for. -/

namespace Sys2Proof.Machine

/-- R10: `quotExp` is the integer `e` with `2^e ≤ a/b < 2^(e+1)`. -/
theorem quotExp_spec {a b : Nat} (ha : a ≠ 0) (hb : b ≠ 0) :
    (2 : ℚ) ^ quotExp a b ≤ (a : ℚ) / b ∧ (a : ℚ) / b < 2 ^ (quotExp a b + 1) := by
  have hb0 : (0 : ℚ) < b := by exact_mod_cast Nat.pos_of_ne_zero hb
  have a1 : (2 : ℚ) ^ a.log2 ≤ a := by exact_mod_cast Nat.log2_self_le ha
  have a2 : (a : ℚ) < 2 ^ a.log2 * 2 := by
    rw [← pow_succ]; exact_mod_cast Nat.lt_log2_self
  have b1 : (2 : ℚ) ^ b.log2 ≤ b := by exact_mod_cast Nat.log2_self_le hb
  have b2 : (b : ℚ) < 2 ^ b.log2 * 2 := by
    rw [← pow_succ]; exact_mod_cast Nat.lt_log2_self
  have pa : (0 : ℚ) < 2 ^ a.log2 := by positivity
  have pb : (0 : ℚ) < 2 ^ b.log2 := by positivity
  have two : (2 : ℚ) ≠ 0 := by norm_num
  unfold quotExp
  split
  · next h =>
    have h' : (b : ℚ) * 2 ^ a.log2 ≤ a * 2 ^ b.log2 := by exact_mod_cast h
    rw [zpow_add₀ two, zpow_sub₀ two, zpow_natCast, zpow_natCast, zpow_one]
    constructor
    · rw [div_le_div_iff₀ pb hb0]; linarith
    · rw [div_mul_eq_mul_div, div_lt_div_iff₀ hb0 pb]
      calc (a : ℚ) * 2 ^ b.log2 < 2 ^ a.log2 * 2 * 2 ^ b.log2 := by gcongr
        _ ≤ 2 ^ a.log2 * 2 * b := by gcongr
  · next h =>
    have h' : (a : ℚ) * 2 ^ b.log2 < b * 2 ^ a.log2 := by exact_mod_cast not_le.mp h
    rw [sub_add_cancel, zpow_sub₀ two, zpow_sub₀ two, zpow_natCast, zpow_natCast, zpow_one]
    constructor
    · rw [div_div, div_le_div_iff₀ (by positivity) hb0]
      calc (2 : ℚ) ^ a.log2 * b ≤ a * b := by gcongr
        _ ≤ a * (2 ^ b.log2 * 2) := by gcongr
    · rw [div_lt_div_iff₀ hb0 pb]; linarith

/-- R10: `rneDiv` is a nearest integer to the exact quotient. -/
theorem rneDiv_spec (a : Nat) {b : Nat} (hb : b ≠ 0) : |(rneDiv a b : ℚ) - a / b| ≤ 1 / 2 := by
  have hb0 : (0 : ℚ) < b := by exact_mod_cast Nat.pos_of_ne_zero hb
  have hr : (a : ℚ) / b = (a / b : Nat) + (a % b : Nat) / b := by
    have h : (a : ℚ) = b * (a / b : Nat) + (a % b : Nat) := by exact_mod_cast (Nat.div_add_mod a b).symm
    field_simp
    linarith
  have hlt : ((a % b : Nat) : ℚ) / b < 1 := by
    rw [div_lt_one hb0]; exact_mod_cast Nat.mod_lt a (Nat.pos_of_ne_zero hb)
  have hnn : (0 : ℚ) ≤ ((a % b : Nat) : ℚ) / b := by positivity
  rw [hr]
  unfold rneDiv
  split
  · next h =>
    have : ((a % b : Nat) : ℚ) / b ≤ 1 / 2 := by
      rw [div_le_div_iff₀ hb0 two_pos]; exact_mod_cast (by omega : a % b * 2 ≤ 1 * b)
    rw [abs_le]; constructor <;> linarith
  · next h1 =>
    have h1' : (1 : ℚ) / 2 ≤ ((a % b : Nat) : ℚ) / b := by
      rw [div_le_div_iff₀ two_pos hb0]; exact_mod_cast (by omega : 1 * b ≤ a % b * 2)
    split
    · push_cast; rw [abs_le]; constructor <;> linarith
    · next h2 =>
      have h2' : ((a % b : Nat) : ℚ) / b ≤ 1 / 2 := by
        rw [div_le_div_iff₀ hb0 two_pos]; exact_mod_cast (by omega : a % b * 2 ≤ 1 * b)
      have h0 : (0 : ℚ) ≤ (a / b % 2 : Nat) := by positivity
      have h3 : ((a / b % 2 : Nat) : ℚ) ≤ 1 := by exact_mod_cast (by omega : a / b % 2 ≤ 1)
      rw [Nat.cast_add, abs_le]; constructor <;> linarith

/-- R10: `scaledSig` is a nearest integer to `a/b * 2^k`. -/
theorem scaledSig_spec (a : Nat) {b : Nat} (hb : b ≠ 0) (k : Int) :
    |(scaledSig a b k : ℚ) - (a : ℚ) / b * 2 ^ k| ≤ 1 / 2 := by
  have hb' : b * 2 ^ (-k).toNat ≠ 0 := by positivity
  have h := rneDiv_spec (a * 2 ^ k.toNat) hb'
  have hb0 : (b : ℚ) ≠ 0 := by exact_mod_cast hb
  have hs : ((a * 2 ^ k.toNat : Nat) : ℚ) / (b * 2 ^ (-k).toNat : Nat) = (a : ℚ) / b * 2 ^ k := by
    push_cast
    rcases le_total 0 k with hk | hk
    · lift k to Nat using hk
      simp [div_mul_eq_mul_div]
    · obtain ⟨j, rfl⟩ : ∃ j : Nat, k = -(j : Int) := ⟨(-k).toNat, by omega⟩
      rw [zpow_neg]
      simp [field]
  rw [hs] at h
  exact h

/-- R10: a quotient scaled to its significand width rounds to an integer in `[2^(p-1), 2^p]`. -/
theorem scaledSig_bounds {a b : Nat} (ha : a ≠ 0) (hb : b ≠ 0) (p : Nat) (hp : p ≠ 0) :
    2 ^ (p - 1) ≤ scaledSig a b ((p : Int) - 1 - quotExp a b) ∧
      scaledSig a b ((p : Int) - 1 - quotExp a b) ≤ 2 ^ p := by
  obtain ⟨h1, h2⟩ := quotExp_spec ha hb
  have h3 := scaledSig_spec a hb ((p : Int) - 1 - quotExp a b)
  set m := scaledSig a b ((p : Int) - 1 - quotExp a b)
  set e := quotExp a b
  have hpos : (0 : ℚ) < 2 ^ ((p : Int) - 1 - e) := by positivity
  have two : (2 : ℚ) ≠ 0 := by norm_num
  have lo : (2 : ℚ) ^ (p - 1) ≤ (a : ℚ) / b * 2 ^ ((p : Int) - 1 - e) := by
    calc (2 : ℚ) ^ (p - 1) = 2 ^ e * 2 ^ ((p : Int) - 1 - e) := by
          rw [← zpow_add₀ two, ← zpow_natCast]; congr 1; omega
      _ ≤ _ := by gcongr
  have hi : (a : ℚ) / b * 2 ^ ((p : Int) - 1 - e) < 2 ^ p := by
    calc _ < (2 : ℚ) ^ (e + 1) * 2 ^ ((p : Int) - 1 - e) := by gcongr
      _ = 2 ^ p := by rw [← zpow_add₀ two, ← zpow_natCast]; congr 1; omega
  rw [abs_le] at h3
  constructor
  · by_contra hlt
    have : (m : ℚ) + 1 ≤ 2 ^ (p - 1) := by exact_mod_cast not_le.mp hlt
    linarith [h3.1, h3.2]
  · by_contra hlt
    have : (2 : ℚ) ^ p + 1 ≤ m := by exact_mod_cast not_le.mp hlt
    linarith [h3.1, h3.2]

/-- The fields of a packed pattern are the ones it was packed from (R10). -/
theorem packFloat_fields (f : Prec) (s : Bool) {biased frac : Nat} (hb : biased < 2 ^ (floatWidth f - floatSig f))
    (hf : frac < 2 ^ (floatSig f - 1)) :
    floatSign f (packFloat f s biased frac) = s ∧ floatBiased f (packFloat f s biased frac) = biased ∧
      floatFrac f (packFloat f s biased frac) = frac := by
  cases f <;> cases s <;>
    · simp only [floatWidth, floatSig] at hb hf
      norm_num at hb hf
      simp only [floatSign, floatBiased, floatFrac, packFloat, floatWidth, floatSig, BitVec.msb_eq_decide,
        BitVec.toNat_ofNat, decide_eq_true_eq, decide_eq_false_iff_not]
      norm_num
      omega

/-- R10: the number that `packNormal` packs, and that its pattern is normal, for an exponent in range. -/
theorem floatValue_packNormal (f : Prec) (s : Bool) {m : Nat} {e : Int} (h1 : 2 ^ (floatSig f - 1) ≤ m)
    (h2 : m ≤ 2 ^ floatSig f) (he1 : 1 ≤ e + floatBias f)
    (he2 : e + 1 + floatBias f < 2 ^ (floatWidth f - floatSig f) - 1) :
    FloatNormal f (packNormal f s m e) ∧ floatSign f (packNormal f s m e) = s ∧
      floatValue f (packNormal f s m e) =
        (if s then -1 else 1) * ((m : ℚ) * 2 ^ (e - ((floatSig f : Int) - 1))) := by
  have hp : 1 ≤ floatSig f := by cases f <;> decide
  have two : (2 : ℚ) ≠ 0 := by norm_num
  obtain ⟨E, hE⟩ : ∃ E : Nat, e + floatBias f = E := ⟨(e + floatBias f).toNat, by omega⟩
  have hbound : E + 1 < 2 ^ (floatWidth f - floatSig f) - 1 := by
    have : (1 : Int) ≤ 2 ^ (floatWidth f - floatSig f) := by exact_mod_cast Nat.one_le_two_pow
    zify [Nat.one_le_two_pow (n := floatWidth f - floatSig f)]
    omega
  have key : ∀ biased frac : Nat, 1 ≤ biased → biased < 2 ^ (floatWidth f - floatSig f) - 1 →
      frac < 2 ^ (floatSig f - 1) →
      FloatNormal f (packFloat f s biased frac) ∧ floatSign f (packFloat f s biased frac) = s ∧
        floatValue f (packFloat f s biased frac) =
          (if s then -1 else 1) * (((2 ^ (floatSig f - 1) + frac : Nat) : ℚ) *
            2 ^ ((biased : Int) - floatBias f - ((floatSig f : Int) - 1))) := by
    intro biased frac hb1 hb2 hf
    obtain ⟨k1, k2, k3⟩ := packFloat_fields f s (show biased < _ by omega) hf
    refine ⟨⟨?_, ?_⟩, k1, ?_⟩
    · show floatBiased f _ ≠ _
      rw [k2]; omega
    · rw [k2]; omega
    · rw [floatValue, k1, k2, k3, if_neg (show ¬ biased = 0 by omega)]
  unfold packNormal
  split
  · next hm =>
    have hz : (e + 1 + floatBias f).toNat = E + 1 := by omega
    obtain ⟨k1, k2, k3⟩ := key (E + 1) 0 (by omega) (by omega) (by positivity)
    rw [hz]
    refine ⟨k1, k2, ?_⟩
    rw [k3, hm]
    congr 1
    push_cast
    rw [add_zero, ← zpow_natCast, ← zpow_natCast, ← zpow_add₀ two, ← zpow_add₀ two]
    congr 1
    push_cast [Nat.cast_sub hp]
    omega
  · next hm =>
    have hz : (e + floatBias f).toNat = E := by omega
    have hpow : 2 ^ floatSig f = 2 * 2 ^ (floatSig f - 1) := by
      rw [← pow_succ']; congr 1; omega
    obtain ⟨k1, k2, k3⟩ := key E (m - 2 ^ (floatSig f - 1)) (by omega) (by omega) (by omega)
    rw [hz]
    refine ⟨k1, k2, ?_⟩
    rw [k3, Nat.add_sub_cancel' h1]
    congr 3
    omega

end Sys2Proof.Machine
end

