-- ==== Sys2Proof/Laws/State.lean ====
section
/-! SUPPORT. What each update of the state does to each field: one lemma per field per update, so that no later proof
unfolds a record update. -/

namespace Sys2Proof.Machine

variable (s : State)

/-! ### `State.nextCycle` -/

@[simp] theorem State.nextCycle_params : (s.nextCycle).params = s.params := rfl
@[simp] theorem State.nextCycle_q : (s.nextCycle).q = s.q := rfl
@[simp] theorem State.nextCycle_waiting : (s.nextCycle).waiting = s.waiting := rfl
@[simp] theorem State.nextCycle_pins : (s.nextCycle).pins = s.pins.tail := rfl
@[simp] theorem State.nextCycle_cycle : (s.nextCycle).cycle = s.cycle + 1 := rfl
@[simp] theorem State.nextCycle_log : (s.nextCycle).log = s.log := rfl

/-! ### `State.ageQueue` -/

@[simp] theorem State.ageQueue_params : (s.ageQueue).params = s.params := rfl
@[simp] theorem State.ageQueue_q : (s.ageQueue).q = s.q.map Entry.older := rfl
@[simp] theorem State.ageQueue_waiting : (s.ageQueue).waiting = s.waiting := rfl
@[simp] theorem State.ageQueue_pins : (s.ageQueue).pins = s.pins := rfl
@[simp] theorem State.ageQueue_cycle : (s.ageQueue).cycle = s.cycle := rfl
@[simp] theorem State.ageQueue_log : (s.ageQueue).log = s.log := rfl

/-! ### `State.leaveWaiting` -/

@[simp] theorem State.leaveWaiting_params (o : Option Offer) : (s.leaveWaiting o).params = s.params := rfl
@[simp] theorem State.leaveWaiting_q (o : Option Offer) : (s.leaveWaiting o).q = s.q := rfl
@[simp] theorem State.leaveWaiting_waiting (o : Option Offer) : (s.leaveWaiting o).waiting = o := rfl
@[simp] theorem State.leaveWaiting_pins (o : Option Offer) : (s.leaveWaiting o).pins = s.pins := rfl
@[simp] theorem State.leaveWaiting_cycle (o : Option Offer) : (s.leaveWaiting o).cycle = s.cycle := rfl
@[simp] theorem State.leaveWaiting_log (o : Option Offer) : (s.leaveWaiting o).log = s.log := rfl

/-! ### `State.takeRequest` -/

@[simp] theorem State.takeRequest_params (r : Request) : (s.takeRequest r).params = s.params := rfl
@[simp] theorem State.takeRequest_q (r : Request) : (s.takeRequest r).q = s.q := rfl
@[simp] theorem State.takeRequest_waiting (r : Request) : (s.takeRequest r).waiting = none := rfl
@[simp] theorem State.takeRequest_pins (r : Request) : (s.takeRequest r).pins = s.pins := rfl
@[simp] theorem State.takeRequest_cycle (r : Request) : (s.takeRequest r).cycle = s.cycle := rfl
@[simp] theorem State.takeRequest_log (r : Request) : (s.takeRequest r).log = s.log ++ [.accept r] := rfl

/-! ### `State.resetEdge` -/

@[simp] theorem State.resetEdge_params (o : Option Offer) : (s.resetEdge o).params = s.params := rfl
@[simp] theorem State.resetEdge_q (o : Option Offer) : (s.resetEdge o).q = [] := rfl
@[simp] theorem State.resetEdge_waiting (o : Option Offer) : (s.resetEdge o).waiting = o := rfl
@[simp] theorem State.resetEdge_pins (o : Option Offer) : (s.resetEdge o).pins = s.pins.tail := rfl
@[simp] theorem State.resetEdge_cycle (o : Option Offer) : (s.resetEdge o).cycle = s.cycle + 1 := rfl
@[simp] theorem State.resetEdge_log (o : Option Offer) : (s.resetEdge o).log = s.log ++ [.reset] := rfl

/-! ### `State.respond` -/

@[simp] theorem State.respond_params (d : Data) (e : BitVec 1) : (s.respond d e).params = s.params := rfl
@[simp] theorem State.respond_q (d : Data) (e : BitVec 1) : (s.respond d e).q = s.q ++ [{ data := d, err := e, age := 0 }] := rfl
@[simp] theorem State.respond_waiting (d : Data) (e : BitVec 1) : (s.respond d e).waiting = s.waiting := rfl
@[simp] theorem State.respond_pins (d : Data) (e : BitVec 1) : (s.respond d e).pins = s.pins := rfl
@[simp] theorem State.respond_cycle (d : Data) (e : BitVec 1) : (s.respond d e).cycle = s.cycle := rfl
@[simp] theorem State.respond_log (d : Data) (e : BitVec 1) : (s.respond d e).log = s.log := rfl

/-! ### `State.raiseIllegalCommand` -/

@[simp] theorem State.raiseIllegalCommand_params : (s.raiseIllegalCommand).params = s.params := rfl
@[simp] theorem State.raiseIllegalCommand_q : (s.raiseIllegalCommand).q = s.q ++ [{ data := 0#64, err := 1#1, age := 0 }] := rfl
@[simp] theorem State.raiseIllegalCommand_waiting : (s.raiseIllegalCommand).waiting = s.waiting := rfl
@[simp] theorem State.raiseIllegalCommand_pins : (s.raiseIllegalCommand).pins = s.pins := rfl
@[simp] theorem State.raiseIllegalCommand_cycle : (s.raiseIllegalCommand).cycle = s.cycle := rfl
@[simp] theorem State.raiseIllegalCommand_log : (s.raiseIllegalCommand).log = s.log := rfl

/-! ### `State.deliver` and `State.beforeAccept` -/

@[simp] theorem State.deliver_params (take : Bool) : (s.deliver take).params = s.params := by
  unfold State.deliver; split <;> rfl
@[simp] theorem State.deliver_waiting (take : Bool) : (s.deliver take).waiting = s.waiting := by
  unfold State.deliver; split <;> rfl
@[simp] theorem State.deliver_pins (take : Bool) : (s.deliver take).pins = s.pins := by
  unfold State.deliver; split <;> rfl
@[simp] theorem State.deliver_cycle (take : Bool) : (s.deliver take).cycle = s.cycle := by
  unfold State.deliver; split <;> rfl

theorem State.deliver_q (take : Bool) :
    (s.deliver take).q = if take && s.rspValid then s.q.tail else s.q := by
  unfold State.deliver; split <;> rfl

theorem State.deliver_log (take : Bool) :
    (s.deliver take).log = if take && s.rspValid then s.log ++ [.deliver s.headResponse] else s.log := by
  unfold State.deliver; split <;> rfl

@[simp] theorem State.beforeAccept_params (take : Bool) : (s.beforeAccept take).params = s.params := by
  simp [State.beforeAccept]
@[simp] theorem State.beforeAccept_waiting (take : Bool) : (s.beforeAccept take).waiting = s.waiting := by
  simp [State.beforeAccept]
@[simp] theorem State.beforeAccept_pins (take : Bool) : (s.beforeAccept take).pins = s.pins.tail := by
  simp [State.beforeAccept]
@[simp] theorem State.beforeAccept_cycle (take : Bool) : (s.beforeAccept take).cycle = s.cycle + 1 := by
  simp [State.beforeAccept]

/-- The edge's bookkeeping is not read by the outputs. -/
@[simp] theorem State.nextCycle_rspValid : s.nextCycle.rspValid = s.rspValid := by
  unfold State.rspValid; rfl

/-- A response is offered only from a queue that is not empty. -/
theorem State.ne_nil_of_rspValid (h : s.rspValid = true) : s.q ≠ [] := by
  intro hq
  simp [State.rspValid, hq] at h

/-- An offered response is the head of the queue. -/
theorem State.headResponse_of_cons {e : Entry} {rest : List Entry} (h : s.q = e :: rest) :
    s.headResponse = e.response := by
  simp [State.headResponse, h]

/-- R34: what is left in the queue before an acceptance. -/
theorem State.beforeAccept_q (take : Bool) :
    (s.beforeAccept take).q = (if take && s.rspValid then s.q.tail else s.q).map Entry.older := by
  simp [State.beforeAccept, State.deliver_q]

/-- R34: what an edge records before an acceptance. -/
theorem State.beforeAccept_log (take : Bool) :
    (s.beforeAccept take).log = s.log ++ (if take && s.rspValid then [.deliver s.headResponse] else []) := by
  simp only [State.beforeAccept, State.ageQueue_log, State.deliver_log, State.nextCycle_rspValid, State.nextCycle_log]
  by_cases h : (take && s.rspValid) = true
  · rw [if_pos h, if_pos h]
    cases hs : s.q with
    | nil => exact absurd hs (State.ne_nil_of_rspValid s (by simp_all))
    | cons e rest => simp [State.headResponse, hs]
  · rw [if_neg h, if_neg h, List.append_nil]

/-! ### The request channel -/

/-- R233: the offer is held exactly when it is what waits, if anything waits. -/
theorem State.offerHeld_iff (o : Option Offer) : s.offerHeld o = true ↔ ∀ w, s.waiting = some w → o = some w := by
  unfold State.offerHeld
  cases s.waiting <;> simp

/-! ### Reset and the request port -/

@[simp] theorem State.resetWith_q (p : Params) : (State.resetWith p).q = [] := rfl
@[simp] theorem State.resetWith_params (p : Params) : (State.resetWith p).params = p := rfl
@[simp] theorem State.resetWith_waiting (p : Params) : (State.resetWith p).waiting = none := rfl
@[simp] theorem State.resetWith_log (p : Params) : (State.resetWith p).log = [] := rfl
@[simp] theorem State.withOffer_waiting (r : Request) : (s.withOffer r).waiting = none := rfl
@[simp] theorem State.withOffer_pinsNow (r : Request) : (s.withOffer r).pinsNow = offerPins r := rfl
@[simp] theorem State.withOffer_params (r : Request) : (s.withOffer r).params = s.params := rfl

/-! ### Entries -/

@[simp] theorem Entry.older_data (e : Entry) : e.older.data = e.data := rfl
@[simp] theorem Entry.older_err (e : Entry) : e.older.err = e.err := rfl
@[simp] theorem Entry.older_age (e : Entry) : e.older.age = e.age + 1 := rfl
@[simp] theorem Entry.older_response (e : Entry) : e.older.response = e.response := rfl

end Sys2Proof.Machine
end

