-- ==== Sys2Proof/Laws/Steps.lean ====
section
/-! SUPPORT. What executing a request and taking a step can do, said once: later proofs cite these lemmas and unfold neither
`exec` nor `step`. -/

namespace Sys2Proof.Machine

/-- Every command answers with data that its operands and `NEG_MAP` alone decide. -/
theorem exec_answers (i : Instr) : ∃ d : NegMap → Data, ∀ s, exec i s = answer (d s.params.negMap) s := by
  cases i with
  | noiseNegOne1d f x seed => exact ⟨fun m => floatData f (toNegOne m f (mix x seed)), fun _ => rfl⟩
  | noiseNegOne2d f x y seed => exact ⟨fun m => floatData f (toNegOne m f (noise2 x y seed)), fun _ => rfl⟩
  | noiseNegOne3d f x y z seed => exact ⟨fun m => floatData f (toNegOne m f (noise3 x y z seed)), fun _ => rfl⟩
  | noiseNegOne4d f x y z t seed => exact ⟨fun m => floatData f (toNegOne m f (noise4 x y z t seed)), fun _ => rfl⟩
  | mapNegOne f n => exact ⟨fun m => floatData f (toNegOne m f n), fun _ => rfl⟩
  | _ => exact ⟨fun _ => _, fun _ => rfl⟩

/-- Executing a request appends one entry, of age 0, that the request and `NEG_MAP` alone decide. -/
theorem execRequest_responds (r : Request) :
    ∃ rsp : NegMap → Response, ∀ s : State,
      execRequest r s = .next (s.respond (rsp s.params.negMap).data (rsp s.params.negMap).err) := by
  unfold execRequest
  cases decode r with
  | instr i =>
    obtain ⟨d, hd⟩ := exec_answers i
    exact ⟨fun m => ⟨d m, errNone⟩, fun s => by simp [hd, answer]⟩
  | illegal why => exact ⟨fun _ => ⟨0#64, errIllegalCommand⟩, fun s => rfl⟩

/-- `responseOf` is what executing the request appends in any state with those parameters. -/
theorem execRequest_of_responseOf (r : Request) (s : State) :
    ∃ rsp, responseOf s.params r = some rsp ∧ execRequest r s = .next (s.respond rsp.data rsp.err) := by
  obtain ⟨rsp, h⟩ := execRequest_responds r
  refine ⟨rsp s.params.negMap, ?_, h s⟩
  simp [responseOf, h, State.responses, Entry.response]

/-- The edges with `rst = 0`: what `runEdge` answers, by what happens to the offer. -/
theorem runEdge_cases (offer : Option Request) (take : Bool) (s : State) :
    (∃ r rsp, offer = some r ∧ s.reqReady = true ∧ responseOf s.params r = some rsp ∧
      runEdge offer take s = .next (((s.beforeAccept take).takeRequest r).respond rsp.data rsp.err)) ∨
    ((offer = none ∨ s.reqReady = false) ∧
      runEdge offer take s = .next ((s.beforeAccept take).leaveWaiting (offer.map some))) := by
  cases offer with
  | none => exact .inr ⟨.inl rfl, rfl⟩
  | some r =>
    cases hr : s.reqReady with
    | false => exact .inr ⟨.inr rfl, by simp [runEdge, hr]⟩
    | true =>
      obtain ⟨rsp, h1, h2⟩ := execRequest_of_responseOf r ((s.beforeAccept take).takeRequest r)
      exact .inl ⟨r, rsp, rfl, rfl, by simpa using h1, by simp [runEdge, hr, h2]⟩

/-- Everything a step that answers a next state can have done: a reset edge, an acceptance, or neither. -/
theorem step_cases {s t : State} (h : step s = .next t) :
    (∃ offer, samplePins s.pinsNow = .resetting offer ∧ s.offerHeld offer = true ∧ t = s.resetEdge offer) ∨
    (∃ r take rsp, samplePins s.pinsNow = .running (some r) take ∧ s.offerHeld (some (some r)) = true ∧
      s.reqReady = true ∧ responseOf s.params r = some rsp ∧
      t = ((s.beforeAccept take).takeRequest r).respond rsp.data rsp.err) ∨
    (∃ offer take, samplePins s.pinsNow = .running offer take ∧ s.offerHeld (offer.map some) = true ∧
      (offer = none ∨ s.reqReady = false) ∧ t = (s.beforeAccept take).leaveWaiting (offer.map some)) := by
  unfold step clockEdge at h
  split at h
  · cases h
  · next offer hp =>
    split at h
    · next hh => exact .inl ⟨offer, hp, hh, by simpa using h.symm⟩
    · cases h
  · next offer take hp =>
    split at h
    · next hh =>
      rcases runEdge_cases offer take s with ⟨r, rsp, rfl, hr, hrsp, he⟩ | ⟨ho, he⟩
      · rw [he] at h
        exact .inr (.inl ⟨r, take, rsp, hp, hh, hr, hrsp, by simpa using h.symm⟩)
      · rw [he] at h
        exact .inr (.inr ⟨offer, take, hp, hh, ho, by simpa using h.symm⟩)
    · cases h

/-! ### The record -/

theorem ledgerOf_append (es fs : List Event) : ledgerOf (es ++ fs) = fs.foldl Ledger.note (ledgerOf es) := by
  simp [ledgerOf]

theorem deliveries_append (es fs : List Event) : deliveries (es ++ fs) = deliveries es ++ deliveries fs := by
  simp [deliveries]

theorem txnRun_append (p : Params) (es fs : List Event) (q : List Response) :
    txnRun p q (es ++ fs) = (txnRun p q es).bind fun q' => txnRun p q' fs := by
  induction es generalizing q with
  | nil => rfl
  | cons e rest ih =>
    simp only [List.cons_append, txnRun]
    cases txnStep p q e with
    | none => rfl
    | some q' => exact ih q'

end Sys2Proof.Machine
end

