-- ==== Sys2Proof/Tests/Slice0.lean ====
section
/-! SUPPORT. Tests of the model. Expected results come from spec/95_test_vectors.md and from the encodings of
spec/30_encoding.md, and each test is one step at most but for the two liveness witnesses (two steps). The tests named
test_hyp_ show that the hypotheses of a statement can all hold together. -/

namespace Sys2Proof.Tests

open Sys2Proof.Machine Sys2Proof.Reference

/-! ### WellFormed: an ill-formed term for each check (R5, R78) -/

theorem test_wf_params_ok : (Params.mk 1 1 .folded).wellFormed = true := by decide
theorem test_wf_latency_zero : (Params.mk 0 1 .folded).wellFormed = false := by decide
theorem test_wf_inflight_zero : (Params.mk 1 0 .folded).wellFormed = false := by decide
theorem test_wf_decimal_ends :
    (Literal.dec (-2147483648)).wellFormed false = true ∧ (Literal.dec 2147483647).wellFormed false = true := by decide
theorem test_wf_decimal_low : (Literal.dec (-2147483649)).wellFormed false = false := by decide
theorem test_wf_decimal_high : (Literal.dec 2147483648).wellFormed false = false := by decide
theorem test_wf_noise_low : (Literal.dec (-1)).wellFormed true = false := by decide
theorem test_wf_noise_high : (Literal.dec 4294967296).wellFormed true = false := by decide
theorem test_wf_hex_empty : (Literal.hex []).wellFormed false = false := by decide
theorem test_wf_hex_nine : (Literal.hex [0, 0, 0, 0, 0, 0, 0, 0, 1]).wellFormed false = false := by decide

/-! ### Decoding: the bytes of each command, written out from R70 and R73 -/

theorem test_decode_noise_raw_1d :
    decodeBytes [0x00, 0x04, 0x03, 0x02, 0x01, 0x00, 0x00, 0x00, 0x00, 0x00, 0x00, 0x00, 0x00, 0x00, 0x00, 0x00, 0x00, 0x44, 0x43, 0x42, 0x41]
      = .instr (.noiseRaw1d 0x01020304#32 0x41424344#32) := by decide
theorem test_decode_noise_raw_2d :
    decodeBytes [0x01, 0x04, 0x03, 0x02, 0x01, 0x14, 0x13, 0x12, 0x11, 0x00, 0x00, 0x00, 0x00, 0x00, 0x00, 0x00, 0x00, 0x44, 0x43, 0x42, 0x41]
      = .instr (.noiseRaw2d 0x01020304#32 0x11121314#32 0x41424344#32) := by decide
theorem test_decode_noise_raw_3d :
    decodeBytes [0x02, 0x04, 0x03, 0x02, 0x01, 0x14, 0x13, 0x12, 0x11, 0x24, 0x23, 0x22, 0x21, 0x00, 0x00, 0x00, 0x00, 0x44, 0x43, 0x42, 0x41]
      = .instr (.noiseRaw3d 0x01020304#32 0x11121314#32 0x21222324#32 0x41424344#32) := by decide
theorem test_decode_noise_raw_4d :
    decodeBytes [0x03, 0x04, 0x03, 0x02, 0x01, 0x14, 0x13, 0x12, 0x11, 0x24, 0x23, 0x22, 0x21, 0x34, 0x33, 0x32, 0x31, 0x44, 0x43, 0x42, 0x41]
      = .instr (.noiseRaw4d 0x01020304#32 0x11121314#32 0x21222324#32 0x31323334#32 0x41424344#32) := by decide
theorem test_decode_noise_z1_1d :
    decodeBytes [0x04, 0x04, 0x03, 0x02, 0x01, 0x00, 0x00, 0x00, 0x00, 0x00, 0x00, 0x00, 0x00, 0x00, 0x00, 0x00, 0x00, 0x44, 0x43, 0x42, 0x41]
      = .instr (.noiseZeroOne1d .binary64 0x01020304#32 0x41424344#32) := by decide
theorem test_decode_noise_z1_2d :
    decodeBytes [0x45, 0x04, 0x03, 0x02, 0x01, 0x14, 0x13, 0x12, 0x11, 0x00, 0x00, 0x00, 0x00, 0x00, 0x00, 0x00, 0x00, 0x44, 0x43, 0x42, 0x41]
      = .instr (.noiseZeroOne2d .binary32 0x01020304#32 0x11121314#32 0x41424344#32) := by decide
theorem test_decode_noise_z1_3d :
    decodeBytes [0x06, 0x04, 0x03, 0x02, 0x01, 0x14, 0x13, 0x12, 0x11, 0x24, 0x23, 0x22, 0x21, 0x00, 0x00, 0x00, 0x00, 0x44, 0x43, 0x42, 0x41]
      = .instr (.noiseZeroOne3d .binary64 0x01020304#32 0x11121314#32 0x21222324#32 0x41424344#32) := by decide
theorem test_decode_noise_z1_4d :
    decodeBytes [0x47, 0x04, 0x03, 0x02, 0x01, 0x14, 0x13, 0x12, 0x11, 0x24, 0x23, 0x22, 0x21, 0x34, 0x33, 0x32, 0x31, 0x44, 0x43, 0x42, 0x41]
      = .instr (.noiseZeroOne4d .binary32 0x01020304#32 0x11121314#32 0x21222324#32 0x31323334#32 0x41424344#32) := by decide
theorem test_decode_noise_n1_1d :
    decodeBytes [0x48, 0x04, 0x03, 0x02, 0x01, 0x00, 0x00, 0x00, 0x00, 0x00, 0x00, 0x00, 0x00, 0x00, 0x00, 0x00, 0x00, 0x44, 0x43, 0x42, 0x41]
      = .instr (.noiseNegOne1d .binary32 0x01020304#32 0x41424344#32) := by decide
theorem test_decode_noise_n1_2d :
    decodeBytes [0x09, 0x04, 0x03, 0x02, 0x01, 0x14, 0x13, 0x12, 0x11, 0x00, 0x00, 0x00, 0x00, 0x00, 0x00, 0x00, 0x00, 0x44, 0x43, 0x42, 0x41]
      = .instr (.noiseNegOne2d .binary64 0x01020304#32 0x11121314#32 0x41424344#32) := by decide
theorem test_decode_noise_n1_3d :
    decodeBytes [0x4A, 0x04, 0x03, 0x02, 0x01, 0x14, 0x13, 0x12, 0x11, 0x24, 0x23, 0x22, 0x21, 0x00, 0x00, 0x00, 0x00, 0x44, 0x43, 0x42, 0x41]
      = .instr (.noiseNegOne3d .binary32 0x01020304#32 0x11121314#32 0x21222324#32 0x41424344#32) := by decide
theorem test_decode_noise_n1_4d :
    decodeBytes [0x0B, 0x04, 0x03, 0x02, 0x01, 0x14, 0x13, 0x12, 0x11, 0x24, 0x23, 0x22, 0x21, 0x34, 0x33, 0x32, 0x31, 0x44, 0x43, 0x42, 0x41]
      = .instr (.noiseNegOne4d .binary64 0x01020304#32 0x11121314#32 0x21222324#32 0x31323334#32 0x41424344#32) := by decide
theorem test_decode_fold_1d :
    decodeBytes [0x10, 0x04, 0x03, 0x02, 0x01, 0x00, 0x00, 0x00, 0x00, 0x00, 0x00, 0x00, 0x00, 0x00, 0x00, 0x00, 0x00, 0x00, 0x00, 0x00, 0x00]
      = .instr (.fold1d 0x01020304#32) := by decide
theorem test_decode_fold_2d :
    decodeBytes [0x11, 0x04, 0x03, 0x02, 0x01, 0x14, 0x13, 0x12, 0x11, 0x00, 0x00, 0x00, 0x00, 0x00, 0x00, 0x00, 0x00, 0x00, 0x00, 0x00, 0x00]
      = .instr (.fold2d 0x01020304#32 0x11121314#32) := by decide
theorem test_decode_fold_3d :
    decodeBytes [0x12, 0x04, 0x03, 0x02, 0x01, 0x14, 0x13, 0x12, 0x11, 0x24, 0x23, 0x22, 0x21, 0x00, 0x00, 0x00, 0x00, 0x00, 0x00, 0x00, 0x00]
      = .instr (.fold3d 0x01020304#32 0x11121314#32 0x21222324#32) := by decide
theorem test_decode_fold_4d :
    decodeBytes [0x13, 0x04, 0x03, 0x02, 0x01, 0x14, 0x13, 0x12, 0x11, 0x24, 0x23, 0x22, 0x21, 0x34, 0x33, 0x32, 0x31, 0x00, 0x00, 0x00, 0x00]
      = .instr (.fold4d 0x01020304#32 0x11121314#32 0x21222324#32 0x31323334#32) := by decide
theorem test_decode_map_z1 :
    decodeBytes [0x64, 0x04, 0x03, 0x02, 0x01, 0x00, 0x00, 0x00, 0x00, 0x00, 0x00, 0x00, 0x00, 0x00, 0x00, 0x00, 0x00, 0x00, 0x00, 0x00, 0x00]
      = .instr (.mapZeroOne .binary32 0x01020304#32) := by decide
theorem test_decode_map_n1 :
    decodeBytes [0x28, 0x04, 0x03, 0x02, 0x01, 0x00, 0x00, 0x00, 0x00, 0x00, 0x00, 0x00, 0x00, 0x00, 0x00, 0x00, 0x00, 0x00, 0x00, 0x00, 0x00]
      = .instr (.mapNegOne .binary64 0x01020304#32) := by decide

/-- R75, section 9: one reserved `cmd` of each group, and a byte string of another length (R77). -/
theorem test_decode_reserved :
    decode ⟨0x80#8, 1, 2, 3, 4, 5⟩ = .illegal .reservedBit ∧ decode ⟨0x3F#8, 1, 2, 3, 4, 5⟩ = .illegal .reservedClass ∧
    decode ⟨0x0C#8, 1, 2, 3, 4, 5⟩ = .illegal .noiseForm ∧ decode ⟨0x43#8, 1, 2, 3, 4, 5⟩ = .illegal .noisePrec ∧
    decode ⟨0x14#8, 1, 2, 3, 4, 5⟩ = .illegal .foldForm ∧ decode ⟨0x50#8, 1, 2, 3, 4, 5⟩ = .illegal .foldPrec ∧
    decode ⟨0x25#8, 1, 2, 3, 4, 5⟩ = .illegal .mapDim ∧ decode ⟨0x2C#8, 1, 2, 3, 4, 5⟩ = .illegal .mapForm ∧
    decodeBytes [0x00, 0x00] = .illegal .badLength := by decide

/-- R80: the packed form of `noise.raw.2d 5, 1, 42`. -/
theorem test_pack : (Request.mk 0x01#8 5 1 0 0 42).pack
    = 0x0000002A0000000000000000000000010000000501#168 := by decide

/-- R76, R53: the bytes of the error response; the padding is the model's choice (log entry 11). -/
theorem test_response_bytes : (Response.mk 0x1122334455667788#64 1#1).toBytes
    = [0x88, 0x77, 0x66, 0x55, 0x44, 0x33, 0x22, 0x11, 0x01] := by decide

theorem test_table_word : decodeTableWord 8 0x4B = some (.noiseNegOne4d .binary32 0 0 0 0 0) ∧
    decodeTableWord 8 0x30 = none := by decide

/-! ### The assembler (R78 to R80) -/

theorem test_assemble_r80 :
    assembleLine "noise.raw.2d 5, 1, 42".toList = .request ⟨0x01#8, 5, 1, 0, 0, 42⟩ := by decide

theorem test_assemble_forms :
    assembleLine "map.n1.d 0x80000000".toList = .request ⟨0x28#8, 0x80000000#32, 0, 0, 0, 0⟩ ∧
    assembleLine "fold.1d -1".toList = .request ⟨0x10#8, 0xFFFFFFFF#32, 0, 0, 0, 0⟩ ∧
    assembleLine "mix 1, 2".toList = .request ⟨0x00#8, 1, 0, 0, 0, 2⟩ := by decide

theorem test_assemble_rejects :
    assembleLine "noise.z1.1d 1, 2".toList = .rejected .unknownName ∧
    assembleLine "fold.2d 1".toList = .rejected .operandCount ∧
    assembleLine "fold.1d 4294967295".toList = .rejected .badOperand ∧
    assembleLine "fold.1d 0x".toList = .rejected .badOperand := by decide

/-! ### The stages (sections 1.1 and 2) -/

theorem test_sanitize : sanitizeSeed (-7#32) = 7#32 ∧ sanitizeSeed 0x80000000#32 = 0x80000000#32 := by decide
theorem test_mix_enter : mixEnter 12345#32 (sanitizeSeed 6789#32) = 0x6956328C#32 := by decide
theorem test_mix_step5 : xorShift 9 0x6956328C#32 = 0x69629995#32 := by decide
theorem test_fold_term : foldTerm foldP1 0x7FFFFFFF#32 = 0x742B434B ∧ foldTerm foldP2 0xFFFFFFFF#32 = 0xFF9C2973 ∧
    foldTerm foldP3 0x4D5AA9B9#32 = 0xFFFFFFFF := by decide

/-! ### Each command: the data it answers (sections 3 to 8) -/

/-- A machine just reset, with parameters of the tests' own. -/
def fresh : State := State.resetWith ⟨2, 2, .folded⟩

/-- The entry a command appended. -/
def lastEntry (o : Host.Outcome State Fault Refusal) : Option Entry :=
  match o with
  | .next t => t.q.getLast?
  | .fault _ => none
  | .refused _ => none

theorem test_exec_noise_raw_1d : lastEntry (exec (.noiseRaw1d 12345#32 6789#32) fresh) = some ⟨0x000000001D50255B#64, 0, 0⟩ := by decide
theorem test_exec_noise_raw_1d_seed : lastEntry (exec (.noiseRaw1d 0#32 (-7#32)) fresh) = some ⟨0x000000000B031234#64, 0, 0⟩ := by decide
theorem test_exec_noise_raw_2d : lastEntry (exec (.noiseRaw2d 2147483647#32 (-1#32) 0#32) fresh) = some ⟨0x000000009BB8868B#64, 0, 0⟩ := by decide
theorem test_exec_noise_raw_3d : lastEntry (exec (.noiseRaw3d 1#32 2#32 3#32 4#32) fresh) = some ⟨0x00000000737BB931#64, 0, 0⟩ := by decide
theorem test_exec_noise_raw_4d : lastEntry (exec (.noiseRaw4d (-1#32) (-1#32) (-1#32) (-1#32) (-1#32)) fresh) = some ⟨0x00000000955FD9CD#64, 0, 0⟩ := by decide
theorem test_exec_fold_1d : lastEntry (exec (.fold1d 0x80000000#32) fresh) = some ⟨0xFFFFFFFF80000000#64, 0, 0⟩ := by decide
theorem test_exec_fold_2d : lastEntry (exec (.fold2d 2147483647#32 (-1#32)) fresh) = some ⟨0x00000001742B434A#64, 0, 0⟩ := by decide
theorem test_exec_fold_3d : lastEntry (exec (.fold3d 6542989#32 0#32 (-1#32)) fresh) = some ⟨0x0000000100000000#64, 0, 0⟩ := by decide
theorem test_exec_fold_4d : lastEntry (exec (.fold4d 0x80000000#32 (-1#32) (-1#32) (-1#32)) fresh) = some ⟨0x0000000273C1F947#64, 0, 0⟩ := by decide
theorem test_exec_map_z1_d : lastEntry (exec (.mapZeroOne .binary64 0x7FFFFFFF#32) fresh) = some ⟨0x3FDFFFFFFFE00000#64, 0, 0⟩ := by decide
theorem test_exec_map_z1_s : lastEntry (exec (.mapZeroOne .binary32 0xFFFFFF7F#32) fresh) = some ⟨0x000000003F7FFFFF#64, 0, 0⟩ := by decide
theorem test_exec_map_n1_d : lastEntry (exec (.mapNegOne .binary64 0x80000001#32) fresh) = some ⟨0xBFEFFFFFFFC00000#64, 0, 0⟩ := by decide
theorem test_exec_map_n1_s : lastEntry (exec (.mapNegOne .binary32 0x80000040#32) fresh) = some ⟨0x00000000BF7FFFFF#64, 0, 0⟩ := by decide
theorem test_exec_noise_z1_1d_d : lastEntry (exec (.noiseZeroOne1d .binary64 0#32 0#32) fresh) = some ⟨0x3FB6791E0016791E#64, 0, 0⟩ := by decide
theorem test_exec_noise_z1_1d_s : lastEntry (exec (.noiseZeroOne1d .binary32 1#32 0#32) fresh) = some ⟨0x000000003F4895CB#64, 0, 0⟩ := by decide
theorem test_exec_noise_z1_2d_d : lastEntry (exec (.noiseZeroOne2d .binary64 5#32 1#32 42#32) fresh) = some ⟨0x3FEC34319EDC3432#64, 0, 0⟩ := by decide
theorem test_exec_noise_z1_3d_s : lastEntry (exec (.noiseZeroOne3d .binary32 1#32 2#32 3#32 4#32) fresh) = some ⟨0x000000003EE6F772#64, 0, 0⟩ := by decide
theorem test_exec_noise_z1_4d_d : lastEntry (exec (.noiseZeroOne4d .binary64 (-1#32) (-1#32) (-1#32) (-1#32) (-1#32)) fresh) = some ⟨0x3FE2ABFB39B2ABFB#64, 0, 0⟩ := by decide
theorem test_exec_noise_n1_1d_d : lastEntry (exec (.noiseNegOne1d .binary64 (-1#32) 0#32) fresh) = some ⟨0xBFA43A4AAC287495#64, 0, 0⟩ := by decide
theorem test_exec_noise_n1_2d_s : lastEntry (exec (.noiseNegOne2d .binary32 5#32 1#32 42#32) fresh) = some ⟨0x00000000BE72F398#64, 0, 0⟩ := by decide
theorem test_exec_noise_n1_3d_d : lastEntry (exec (.noiseNegOne3d .binary64 1#32 2#32 3#32 4#32) fresh) = some ⟨0x3FECDEEE4C79BDDD#64, 0, 0⟩ := by decide
theorem test_exec_noise_n1_4d_s : lastEntry (exec (.noiseNegOne4d .binary32 (-1#32) (-1#32) (-1#32) (-1#32) (-1#32)) fresh) = some ⟨0x00000000BF55404C#64, 0, 0⟩ := by decide

/-- Section 7: the two other readings of `NEG_MAP`. -/
theorem test_neg_map_readings :
    toNegOne .literal .binary64 0x16791E00#32 = 0xBFFD30DC401A61B9#64 ∧
    toNegOne .signed .binary64 0xFFFFFFFE#32 = 0xBE10000000200000#64 := by decide

/-! ### The queue and the ports (program 2 of section 10: LATENCY = 2, MAX_INFLIGHT = 2) -/

/-- The requests A, B and C of program 2. -/
def reqA : Request := ⟨0x00#8, 0, 0, 0, 0, 0⟩
def reqB : Request := ⟨0x00#8, 1, 0, 0, 0, 0⟩
def reqC : Request := ⟨0x00#8, 0xFFFFFFFF#32, 0, 0, 0, 0⟩

/-- Entries of A and B of the given ages. -/
def entryA (age : Nat) : Entry := ⟨0x0000000016791E00#64, 0, age⟩
def entryB (age : Nat) : Entry := ⟨0x00000000C895CB1D#64, 0, age⟩

/-- The levels of one cycle. -/
def cyclePins (rst valid : Bool) (r : Request) (ready : Bool) : Pins := ⟨rst, some valid, some r, some ready⟩

/-- A state with a given `Q` and given levels at the coming edge. -/
def stateWith (q : List Entry) (waiting : Option Offer) (pins : List Pins) : State :=
  { fresh with q := q, waiting := waiting, pins := pins, cycle := 9 }

/-- What a step leaves in `Q`. -/
def queueAfter (o : Host.Outcome State Fault Refusal) : Option (List Entry) :=
  match o with
  | .next t => some t.q
  | .fault _ => none
  | .refused _ => none

/-- Cycle 1: A is accepted. -/
theorem test_step_accept : queueAfter (step (stateWith [] none [cyclePins false true reqA true])) = some [entryA 0] := by
  decide

/-- Cycle 3: `Q` is full, so C waits and the ages go up. -/
theorem test_step_full :
    queueAfter (step (stateWith [entryA 1, entryB 0] none [cyclePins false true reqC false]))
      = some [entryA 2, entryB 1] := by decide

/-- Cycle 4: A's response is offered and not taken. -/
theorem test_step_offered :
    ((stateWith [entryA 2, entryB 1] (some (some reqC)) []).outputs false).rspValid = true ∧
    ((stateWith [entryA 2, entryB 1] (some (some reqC)) []).outputs false).rspData = 0x16791E00#64 ∧
    ((stateWith [entryA 2, entryB 1] (some (some reqC)) []).outputs false).reqReady = false := by decide

/-- Cycle 5: the reset edge empties `Q`; C stays on the port. -/
theorem test_step_reset :
    queueAfter (step (stateWith [entryA 3, entryB 2] (some (some reqC)) [cyclePins true true reqC false])) = some [] := by decide

/-- A delivery and an acceptance at one edge (R34). -/
theorem test_step_both :
    queueAfter (step (stateWith [entryA 2] none [cyclePins false true reqB true])) = some [entryB 0] ∧
    queueAfter (step (stateWith [entryA 1] none [cyclePins false true reqB true])) = some [entryA 2, entryB 0] := by decide

/-- Program 3, request 2: a reserved `cmd` takes its place. -/
theorem test_step_illegal :
    queueAfter (step (stateWith [entryA 0] none [cyclePins false true ⟨0x80#8, 1, 0, 0, 0, 0⟩ true]))
      = some [entryA 1, ⟨0#64, 1, 0⟩] := by decide

/-- Program 5 (d): the requester changes its request while it waits. -/
theorem test_step_violation :
    step (stateWith [] (some (some reqA)) [cyclePins false true reqB false]) = .fault .protocolViolation := rfl

/-- R233 under `rst = 1`: an offer of unknown fields may stay, and may not be dropped. -/
theorem test_step_unknown_offer_under_reset :
    queueAfter (step (stateWith [] (some none) [⟨true, some true, none, none⟩])) = some [] ∧
    step (stateWith [] (some none) [⟨true, some false, none, none⟩]) = .fault .protocolViolation := ⟨rfl, rfl⟩

/-- From reset, for the realisation's open `LATENCY` and `MAX_INFLIGHT`, the offered instruction is the first that runs. -/
theorem test_fetch_word : queueAfter (step (State.reset.withFetchWord 8 0x00)) = some [entryA 0] := by decide

/-! ### Witnesses: the hypotheses of the statements can hold -/

theorem test_hyp_reserved : reserved 0x30#8 = true ∧ reserved 0xFF#8 = true ∧ reserved 0x2B#8 = true := by decide

theorem test_hyp_illegal_request_takes_its_place :
    ∃ (s : State) (r : Request) (take : Bool),
      s.pinsNow = { rst := false, reqValid := some true, req := some r, rspReady := some take } ∧
      (s.waiting = none ∨ s.waiting = some (some r)) ∧ s.q.length < s.params.maxInflight ∧ legal r.cmd = false :=
  ⟨stateWith [entryA 2] none [cyclePins false true ⟨0x25#8, 1, 2, 3, 4, 5⟩ true], ⟨0x25#8, 1, 2, 3, 4, 5⟩, true, by decide⟩

theorem test_hyp_unread_fields :
    ∃ a b : Request, a.cmd = b.cmd ∧ a.x = b.x ∧ (readsY a.cmd → a.y = b.y) ∧ (readsZ a.cmd → a.z = b.z) ∧
      (readsT a.cmd → a.t = b.t) ∧ (readsSeed a.cmd → a.seed = b.seed) ∧ a ≠ b :=
  ⟨⟨0x11#8, 1, 2, 3, 4, 5⟩, ⟨0x11#8, 1, 2, 9, 9, 9⟩, rfl, rfl, fun _ => rfl,
    fun h => absurd h (by unfold readsZ; decide), fun h => absurd h (by unfold readsT; decide),
    fun h => absurd h (by unfold readsSeed; decide), by decide⟩

theorem test_hyp_answers_in_low_half :
    answersInLowHalf (.noiseRaw1d 0 0) = true ∧ answersInLowHalf (.mapNegOne .binary32 0) = true := by decide

theorem test_hyp_assembled_command :
    ∃ (w : Written) (r : Request), assemble w = .request r :=
  ⟨⟨"noise.z1.3d.s", [.dec 1, .dec 2, .dec 3, .hex [4]]⟩, ⟨0x46#8, 1, 2, 3, 0, 4⟩, by decide⟩

/-- The ends of the ranges, and one and eight hexadecimal digits. -/
theorem test_hyp_operands_fill_their_fields :
    operandOk false (.dec (-2147483648)) ∧ operandOk false (.dec 2147483647) ∧ operandOk false (.hex [15]) ∧
    operandOk true (.dec 0) ∧ operandOk true (.dec 4294967295) ∧ operandOk true (.hex [8, 0, 0, 0, 0, 0, 0, 0]) := by
  simp [operandOk]

/-- One past each end, in the last operand of a `noise` command and the operand of a `map` command. -/
theorem test_hyp_assembler_rejects :
    cmdOfName "noise.z1.2d.s" = some 0x45#8 ∧ operandCountOf 0x45#8 = 3 ∧ isMapCmd 0x45#8 = false ∧
    cmdOfName "map.n1.d" = some 0x28#8 ∧ operandCountOf 0x28#8 = 1 ∧ isMapCmd 0x28#8 = true ∧
    (∀ o ∈ [Literal.dec (-2147483649), .dec 2147483648, .hex [], .hex (List.replicate 9 0)], ¬ operandOk false o) ∧
    ∀ o ∈ [Literal.dec (-1), .dec 4294967296, .hex [], .hex (List.replicate 9 0)], ¬ operandOk true o := by
  refine ⟨by decide, by decide, by decide, by decide, by decide, by decide, ?_, ?_⟩ <;> simp [operandOk]

theorem test_hyp_commands :
    reqA.cmd = 0x00#8 ∧ (∀ c ∈ [0x01#8, 0x02#8, 0x03#8, 0x10#8, 0x11#8, 0x12#8, 0x13#8], (Request.mk c 1 2 3 4 5).cmd = c) ∧
    (∀ c ∈ [0x04#8, 0x45#8, 0x06#8, 0x47#8, 0x08#8, 0x49#8, 0x0A#8, 0x4B#8, 0x24#8, 0x68#8],
      (Request.mk c 1 2 3 4 5).cmd = c ∧ legal c = true) ∧
    byPrec 0x05#8 0x45#8 .binary32 = 0x45#8 ∧ byPrec 0x08#8 0x48#8 .binary64 = 0x08#8 := by decide

theorem test_hyp_commands_only_append : ∃ t, exec (.fold1d 5#32) fresh = .next t := ⟨_, rfl⟩

theorem test_hyp_neg_map : isNegOne (.fold1d 0) = false ∧ isNegOne (.mapZeroOne .binary64 0) = false ∧
    fresh.params.negMap = .folded := by decide

theorem test_hyp_fold_term : (357239 : Int) ∈ [(198491317 : Int), 6542989, 357239] := by decide

theorem test_hyp_mix_and_noise : ∃ s s' : Word, s ≠ s' ∧ s.toInt.natAbs = s'.toInt.natAbs := ⟨7#32, -7#32, by decide⟩

theorem test_hyp_zero_quotient :
    zeroOneQuot 0#32 = 0 ∧ negOneQuot .folded 0#32 = 0 ∧ negOneQuot .folded 0xFFFFFFFF#32 = 0 := by
  simp [zeroOneQuot, negOneQuot, negNumRef]

theorem test_hyp_another_finite_value :
    FloatFinite .binary32 (0x3F800000#32) ∧
    floatValue .binary32 (0x3F800000#32) ≠ floatValue .binary32 (toZeroOne .binary32 0#32) := by
  refine ⟨by decide, ?_⟩
  have h : toZeroOne .binary32 0#32 = 0#32 := by decide
  have h0 : floatFrac .binary32 (0#32) = 0 := by decide
  have h1 : floatBiased .binary32 (0#32) = 0 := by decide
  have h2 : floatBiased .binary32 (0x3F800000#32) = 127 := by decide
  have h3 : floatSign .binary32 (0x3F800000#32) = false := by decide
  rw [h]
  simp only [floatValue, h0, h1, h2, h3]
  norm_num [zpow_ne_zero]
  norm_num [floatSig]
  positivity

theorem test_hyp_noise_2d_bijection : ∃ y y' : Word,
    exec (.noiseRaw2d 5#32 y 42#32) fresh = exec (.noiseRaw2d 5#32 y' 42#32) fresh := ⟨1#32, 1#32, rfl⟩

theorem test_hyp_monotone : (0x7FFFFFFF#32).toNat ≤ (0x80000000#32).toNat := by decide

theorem test_hyp_reset_edge : ∃ s : State, s.pinsNow.rst = true ∧ Held s :=
  ⟨stateWith [entryA 3, entryB 2] (some (some reqC)) [cyclePins true true reqC false], rfl, by
    intro r h
    cases h
    exact ⟨rfl, rfl⟩⟩

theorem test_hyp_step_runs :
    ∃ (s : State) (r : Request) (take : Bool) (i : Instr),
      s.pinsNow = { rst := false, reqValid := some true, req := some r, rspReady := some take } ∧
      (s.waiting = none ∨ s.waiting = some (some r)) ∧ s.q.length < s.params.maxInflight ∧ decode r = .instr i :=
  ⟨stateWith [entryA 2] (some (some reqB)) [cyclePins false true reqB true], reqB, true, .noiseRaw1d 1 0, by decide⟩

/-- At the boundary `age = LATENCY`, with a request offered to a `Q` one short of full. -/
theorem test_hyp_edge_follows :
    ∃ (s : State) (valid take : Bool) (r : Request),
      s.pinsNow = { rst := false, reqValid := some valid, req := some r, rspReady := some take } ∧ Held s ∧
      (∃ e rest, s.q = e :: rest ∧ s.params.latency ≤ e.age) ∧ s.q.length < s.params.maxInflight :=
  ⟨stateWith [entryA 2] none [cyclePins false true reqB true], true, true, reqB, rfl,
    (by intro r h; cases h), ⟨entryA 2, [], rfl, by decide⟩, by decide⟩

theorem test_hyp_offered_response_stays :
    ∃ (s : State) (valid : Bool) (r : Request),
      s.pinsNow = { rst := false, reqValid := some valid, req := some r, rspReady := some false } ∧ Held s ∧
      (s.outputs false).rspValid = true :=
  ⟨stateWith [entryA 2, entryB 1] (some (some reqC)) [cyclePins false true reqC false], true, reqC, rfl,
    (by intro r h; cases h; exact ⟨rfl, rfl⟩), by decide⟩

/-- A known request before a full `Q`, and one of unknown fields under `rst`. -/
theorem test_hyp_unaccepted_offer_waits :
    (∃ (s : State) (fields : Offer),
      s.pinsNow = { rst := false, reqValid := some true, req := fields, rspReady := some false } ∧ fields ≠ none ∧
      Held s ∧ (s.outputs false).reqReady = false) ∧
    ∃ s : State, s.pinsNow = { rst := true, reqValid := some true, req := none, rspReady := some true } ∧ Held s :=
  ⟨⟨stateWith [entryA 1, entryB 0] none [cyclePins false true reqC false], some reqC, rfl, by decide,
      (by intro r h; cases h), by decide⟩,
    stateWith [] (some none) [⟨true, some true, none, some true⟩], rfl, (by intro r h; cases h; exact ⟨rfl, rfl⟩)⟩

/-- Dropped, changed, and no longer unknown; then each unknown level alone. -/
theorem test_hyp_protocol_violation :
    (∀ p ∈ [(some reqA, reqA, false), (some reqA, reqB, true), (none, reqA, true)],
      ∃ s : State, s.waiting = some p.1 ∧
        s.pinsNow = { rst := false, reqValid := some p.2.2, req := some p.2.1, rspReady := some true } ∧
        (p.2.2 = false ∨ p.1 ≠ some p.2.1)) ∧
    ∀ p ∈ [Pins.mk false none (some reqA) (some true), ⟨false, some false, none, some true⟩,
        ⟨false, some false, some reqA, none⟩],
      ∃ s : State, s.pinsNow = p ∧ s.pinsNow.rst = false ∧
        (s.pinsNow.reqValid = none ∨ s.pinsNow.req = none ∨ s.pinsNow.rspReady = none) :=
  ⟨fun p hp => ⟨stateWith [] (some p.1) [⟨false, some p.2.2, some p.2.1, some true⟩], rfl, rfl, by revert p; decide⟩,
    fun p hp => ⟨stateWith [] none [p], rfl, by revert p; decide⟩⟩

/-- Dropped, changed and unknown, from a known offer and from one of unknown fields. -/
theorem test_hyp_changed_offer_under_reset :
    ∀ p ∈ [(some reqA, some false, some reqA), (some reqA, some true, some reqB), (some reqA, none, some reqA),
        (none, some false, none), (none, some true, some reqA)],
      ∃ s : State, s.waiting = some p.1 ∧ s.pinsNow.rst = true ∧
        (s.pinsNow.reqValid ≠ some true ∨ s.pinsNow.req ≠ p.1) :=
  fun p hp => ⟨stateWith [] (some p.1) [⟨true, p.2.1, p.2.2, some true⟩], rfl, rfl, by revert p; decide⟩

/-- A machine just reset accepts A. -/
def acceptingA : State := { fresh with pins := [cyclePins false true reqA true] }

theorem test_hyp_step_keeps_sound : acceptingA.Sound ∧ ∃ t, step acceptingA = .next t :=
  ⟨⟨by decide, by decide, List.Pairwise.nil, by decide, by decide⟩, _, rfl⟩

theorem test_hyp_in_order : acceptingA.InOrder ∧ ∃ t, step acceptingA = .next t := ⟨rfl, _, rfl⟩

theorem test_hyp_transaction_run : TransactionRun acceptingA ∧ ∃ t, step acceptingA = .next t := ⟨rfl, _, rfl⟩

/-- One response in `Q`, `LATENCY = 1`, and the levels of two quiet edges. -/
def draining : State :=
  { State.resetWith ⟨1, 1, .folded⟩ with
    q := [entryA 0], pins := [cyclePins false false reqA true, cyclePins false false reqA true] }

theorem test_hyp_every_request_is_answered :
    2 = draining.params.latency + draining.q.length ∧ 2 ≤ draining.pins.length ∧
    (∀ p ∈ draining.pins.take 2, p.rst = false ∧ p.rspReady = some true) ∧ ∃ t, runSteps 2 draining = .next t :=
  ⟨rfl, by decide, by decide, _, rfl⟩

theorem test_hyp_quiet_run :
    2 = draining.params.latency + draining.q.length ∧ 2 ≤ draining.pins.length ∧ draining.waiting = none ∧
    ∀ p ∈ draining.pins.take 2,
      p.rst = false ∧ p.reqValid = some false ∧ p.req.isSome = true ∧ p.rspReady = some true :=
  ⟨rfl, by decide, rfl, by decide⟩

theorem test_hyp_timing :
    ∃ (s t s' t' : State) (rst valid take : Bool) (r r' : Request),
      s.params.latency = s'.params.latency ∧ s.params.maxInflight = s'.params.maxInflight ∧
      s.q.map Entry.age = s'.q.map Entry.age ∧
      s.pinsNow = { rst := rst, reqValid := some valid, req := some r, rspReady := some take } ∧
      s'.pinsNow = { rst := rst, reqValid := some valid, req := some r', rspReady := some take } ∧
      step s = .next t ∧ step s' = .next t' ∧ s.q ≠ s'.q ∧ r ≠ r' :=
  ⟨stateWith [entryA 2] none [cyclePins false true reqB true], _,
    stateWith [entryB 2] none [cyclePins false true reqC true], _, false, true, true, reqB, reqC,
    rfl, rfl, rfl, rfl, rfl, rfl, rfl, by decide, by decide⟩

theorem test_hyp_step_frame : ∃ s t : State, step s = .next t := ⟨acceptingA, _, rfl⟩

end Sys2Proof.Tests
end

section
/-! Proofs of the statements about the scope of the model: what a response depends on, what a step does outside `Q`, and
the state right after reset. -/

namespace Sys2Proof.Machine

/-! ### The response to a request (R12, R56) -/

/-- One function of `NEG_MAP` gives both what `responseOf` says and what an execution appends. -/
theorem exists_response_by_negMap (r : Request) :
    ∃ rsp : NegMap → Response, (∀ p : Params, responseOf p r = some (rsp p.negMap)) ∧
      ∀ s : State, execRequest r s =
        .next (s.respond (rsp s.params.negMap).data (rsp s.params.negMap).err) := by
  obtain ⟨rsp, hexec⟩ := execRequest_responds r
  exact ⟨rsp, fun p => by simp [responseOf, hexec, State.responses, Entry.response], hexec⟩

/-- Settles O21: the response is the value at `NEG_MAP` of a function that the request alone gives. -/
theorem responseDependsOnTheRequestAlone : Obligations.ResponseDependsOnTheRequestAlone := by
  intro r m
  obtain ⟨rsp, hresponse, hexec⟩ := exists_response_by_negMap r
  refine ⟨rsp m, fun latency maxInflight => hresponse ⟨latency, maxInflight, m⟩, ?_⟩
  rintro s rfl
  exact hexec s

/-! ### What a step does outside `Q` (R34, R230) -/

/-- Only an edge with `rst = 0` samples as running. -/
theorem rst_of_samplePins_running {p : Pins} {offer : Option Request} {take : Bool}
    (h : samplePins p = .running offer take) : p.rst = false := by
  cases hrst : p.rst with
  | false => rfl
  | true => cases hvalid : p.reqValid <;> simp [samplePins, hrst, hvalid] at h

/-- Before an acceptance an edge records a delivery or nothing. -/
theorem State.beforeAccept_log_events (s : State) (take : Bool) :
    ∃ events, (s.beforeAccept take).log = s.log ++ events ∧ events.length ≤ 1 :=
  ⟨_, s.beforeAccept_log take, by split <;> simp⟩

/-- Settles O58, by the three things a step can have done. -/
theorem stepFrame : Obligations.StepFrame := by
  intro s t h
  rcases step_cases h with ⟨offer, -, -, rfl⟩ | ⟨r, take, rsp, hpins, -, -, -, rfl⟩ | ⟨offer, take, hpins, -, -, rfl⟩
  case inl => exact ⟨rfl, rfl, rfl, ⟨[.reset], rfl, by simp⟩, fun _ => rfl⟩
  case inr.inl =>
    obtain ⟨events, hlog, hlen⟩ := s.beforeAccept_log_events take
    refine ⟨by simp, by simp, by simp, ⟨events ++ [.accept r], by simp [hlog], ?_⟩, ?_⟩
    · rw [List.length_append, List.length_singleton]
      omega
    · simp [rst_of_samplePins_running hpins]
  case inr.inr =>
    obtain ⟨events, hlog, hlen⟩ := s.beforeAccept_log_events take
    refine ⟨by simp, by simp, by simp, ⟨events, by simp [hlog], by omega⟩, ?_⟩
    simp [rst_of_samplePins_running hpins]

/-! ### The state right after reset (R37) -/

/-- The realisation's own parameters lie in their domains (R5). -/
theorem config_params_wellFormed : Config.params.wellFormed = true := by
  simp [Params.wellFormed, Config.params]

/-- With an empty `Q`, only the parameters have anything to meet. -/
theorem State.sound_of_q_nil {s : State} (hparams : s.params.wellFormed = true) (hq : s.q = []) : s.Sound where
  params := hparams
  depth := by simp [State.WithinDepth, hq]
  oldestFirst := by simp [State.OldestFirst, hq]
  ages := by simp [State.AgesCounted, hq]
  errors := by simp [State.ErrorsEmpty, hq]

/-- Settles O50: `Q` is empty after reset. -/
theorem resetIsSound : Obligations.ResetIsSound :=
  ⟨State.sound_of_q_nil config_params_wellFormed rfl, fun _ hp => State.sound_of_q_nil hp rfl⟩

end Sys2Proof.Machine
end

section
/-! Rules of one rising edge that the proofs about the queue share: what the outputs mean, what is left in `Q` before an
acceptance, and which edge the levels at the inputs make. -/

namespace Sys2Proof.Machine

open Sys2Proof.Reference

variable {s : State}

/-! ### The outputs (R34, R37) -/

theorem State.reqReady_iff (s : State) : s.reqReady = true ↔ s.q.length < s.params.maxInflight := by
  simp [State.reqReady]

theorem State.rspValid_iff (s : State) :
    s.rspValid = true ↔ ∃ e rest, s.q = e :: rest ∧ s.params.latency ≤ e.age := by
  cases hq : s.q <;> simp [State.rspValid, hq]

/-- R34: a head that is old enough is what the outputs offer. -/
theorem State.outputs_of_old_head {e : Entry} {rest : List Entry} (hq : s.q = e :: rest)
    (hage : s.params.latency ≤ e.age) :
    (s.outputs false).rspValid = true ∧ (s.outputs false).rspData = e.data ∧ (s.outputs false).rspErr = e.err := by
  have hvalid : s.rspValid = true := s.rspValid_iff.mpr ⟨e, rest, hq, hage⟩
  simp [State.outputs, hvalid, s.headResponse_of_cons hq, Entry.response]

/-! ### What is left in `Q` before an acceptance (R34) -/

theorem State.beforeAccept_q_of_deliver (s : State) (take : Bool) :
    (s.beforeAccept take).q = (s.deliver take).q.map Entry.older := by
  rw [s.beforeAccept_q, s.deliver_q]

/-- A delivery only takes entries out, and leaves the others in their order. -/
theorem State.deliver_q_sublist (s : State) (take : Bool) : (s.deliver take).q.Sublist s.q := by
  rw [s.deliver_q]
  split
  · exact List.tail_sublist s.q
  · exact List.Sublist.refl s.q

theorem State.beforeAccept_q_length_le (s : State) (take : Bool) : (s.beforeAccept take).q.length ≤ s.q.length := by
  rw [s.beforeAccept_q_of_deliver, List.length_map]
  exact (s.deliver_q_sublist take).length_le

/-- `req_ready` is read before the edge, and the edge before an acceptance fills no place. -/
theorem State.beforeAccept_room (hready : s.reqReady = true) (take : Bool) :
    (s.beforeAccept take).q.length < (s.beforeAccept take).params.maxInflight := by
  rw [State.beforeAccept_params]
  exact (s.beforeAccept_q_length_le take).trans_lt (s.reqReady_iff.mp hready)

/-! ### Which edge the levels at the inputs make (R27, R28, R202, R233) -/

theorem step_of_unknown (hpins : samplePins s.pinsNow = .unknown) : step s = .fault .unknownInput := by
  simp [step, clockEdge, hpins]

theorem step_of_resetting {offer : Option Offer} (hpins : samplePins s.pinsNow = .resetting offer) :
    step s = if s.offerHeld offer then .next (s.resetEdge offer) else .fault .protocolViolation := by
  simp [step, clockEdge, hpins]

theorem step_of_running {offer : Option Request} {take : Bool} (hpins : samplePins s.pinsNow = .running offer take) :
    step s = if s.offerHeld (offer.map some) then runEdge offer take s else .fault .protocolViolation := by
  simp [step, clockEdge, hpins]

/-- Known levels with `rst = 0` and an offer that is held make an edge of R34. -/
theorem step_of_known_levels {valid take : Bool} {r : Request}
    (hpins : s.pinsNow = { rst := false, reqValid := some valid, req := some r, rspReady := some take })
    (hheld : s.offerHeld ((offerOf valid r).map some) = true) : step s = runEdge (offerOf valid r) take s := by
  rw [step_of_running (by rw [hpins]; rfl), if_pos hheld]

/-- On known levels, the request channel being held is the model's own test of it. -/
theorem offerHeld_of_held {valid : Bool} {r : Request} (hheld : Held s) (hvalid : s.pinsNow.reqValid = some valid)
    (hreq : s.pinsNow.req = some r) : s.offerHeld ((offerOf valid r).map some) = true := by
  rw [s.offerHeld_iff]
  intro o ho
  obtain ⟨hv, hr⟩ := hheld o ho
  have hvalid_true : valid = true := by simpa [hvalid] using hv
  have hoffer : o = some r := hr.symm.trans hreq
  simp [offerOf, hvalid_true, hoffer]

end Sys2Proof.Machine
end

section
/-! Proofs of the statements about `Q` along a run: it stays sound (R30, R34), and the recorded transfers stay a run of the
transaction-level view (R36). -/

namespace Sys2Proof.Machine

open Sys2Proof.Reference

variable {s : State}

/-! ### Soundness of the queue (R30, R34, R201) -/

/-- R200, R201: only the answer to an illegal command has `err = 1`, and its data is 0. -/
theorem data_eq_zero_of_responseOf {p : Params} {r : Request} {rsp : Response} (h : responseOf p r = some rsp)
    (herr : rsp.err = 1#1) : rsp.data = 0#64 := by
  unfold responseOf execRequest at h
  cases hdecode : decode r with
  | illegal why =>
    have hrsp : ⟨0#64, 1#1⟩ = rsp := by simpa [hdecode, State.responses, Entry.response] using h
    rw [← hrsp]
  | instr i =>
    obtain ⟨d, hd⟩ := exec_answers i
    have hrsp : ⟨d p.negMap, errNone⟩ = rsp := by
      simpa [hdecode, hd, answer, State.responses, Entry.response] using h
    rw [← hrsp] at herr
    exact absurd herr (show ¬ errNone = 1#1 by decide)

/-- After the ages went up, no entry has age 0, which is left for the one to be accepted. -/
theorem State.beforeAccept_age_pos (take : Bool) : ∀ e ∈ (s.beforeAccept take).q, 0 < e.age := by
  rw [s.beforeAccept_q_of_deliver]
  simp

/-- A delivery and the passing of an edge keep a queue sound. -/
theorem State.Sound.beforeAccept (h : s.Sound) (take : Bool) : (s.beforeAccept take).Sound := by
  have hsub := s.deliver_q_sublist take
  refine ⟨by simpa using h.params, ?depth, ?oldestFirst, ?ages, ?errors⟩
  case depth =>
    rw [State.WithinDepth, State.beforeAccept_params]
    exact (s.beforeAccept_q_length_le take).trans h.depth
  all_goals simp only [State.OldestFirst, State.AgesCounted, State.ErrorsEmpty, s.beforeAccept_q_of_deliver]
  case oldestFirst =>
    refine (h.oldestFirst.sublist hsub).map Entry.older fun a b hab => ?_
    exact Nat.succ_lt_succ hab
  case ages =>
    simpa using fun e he => h.ages e (hsub.subset he)
  case errors =>
    simpa using fun e he => h.errors e (hsub.subset he)

/-- Soundness reads the parameters, `Q` and the count of edges alone. -/
theorem State.Sound.congr {t : State} (h : s.Sound) (hparams : t.params = s.params) (hq : t.q = s.q)
    (hcycle : t.cycle = s.cycle) : t.Sound where
  params := hparams ▸ h.params
  depth := by simpa [State.WithinDepth, hparams, hq] using h.depth
  oldestFirst := by simpa [State.OldestFirst, hq] using h.oldestFirst
  ages := by simpa [State.AgesCounted, hq, hcycle] using h.ages
  errors := by simpa [State.ErrorsEmpty, hq] using h.errors

/-- A response at the end of a sound `Q` with room keeps it sound, where every entry is older than the new one. -/
theorem State.Sound.respond (h : s.Sound) {rsp : Response} (hroom : s.q.length < s.params.maxInflight)
    (hages : ∀ e ∈ s.q, 0 < e.age) (hcycle : 0 < s.cycle) (herr : rsp.err = 1#1 → rsp.data = 0#64) :
    (s.respond rsp.data rsp.err).Sound where
  params := h.params
  depth := by simpa [State.WithinDepth] using hroom
  oldestFirst := by simpa [State.OldestFirst, List.pairwise_append] using ⟨h.oldestFirst, hages⟩
  ages := by
    simp only [State.AgesCounted, State.respond_q, List.forall_mem_append, List.forall_mem_singleton]
    exact ⟨h.ages, hcycle⟩
  errors := by
    simp only [State.ErrorsEmpty, State.respond_q, List.forall_mem_append, List.forall_mem_singleton]
    exact ⟨h.errors, herr⟩

/-- Settles O49, by the three things a step can have done. -/
theorem stepKeepsTheQueueSound : Obligations.StepKeepsTheQueueSound := by
  intro s t h hstep
  rcases step_cases hstep with
    ⟨offer, -, -, rfl⟩ | ⟨r, take, rsp, -, -, hready, hrsp, rfl⟩ | ⟨offer, take, -, -, -, rfl⟩
  case inl => exact State.sound_of_q_nil h.params rfl
  case inr.inl =>
    have htaken : ((s.beforeAccept take).takeRequest r).Sound := (h.beforeAccept take).congr rfl rfl rfl
    exact htaken.respond (State.beforeAccept_room hready take) (State.beforeAccept_age_pos take) (by simp)
      (data_eq_zero_of_responseOf hrsp)
  case inr.inr => exact (h.beforeAccept take).congr rfl rfl rfl

/-! ### The transaction-level view (R36) -/

@[simp] theorem State.beforeAccept_responses (s : State) (take : Bool) :
    (s.beforeAccept take).responses = if take && s.rspValid then s.responses.tail else s.responses := by
  rw [State.responses, s.beforeAccept_q]
  split <;> simp [State.responses, Function.comp_def]

/-- One more recorded transfer, enabled where the run so far has led, makes a longer run. -/
theorem transactionRun_of_step {t : State} {e : Event} (h : TransactionRun s) (hparams : t.params = s.params)
    (hlog : t.log = s.log ++ [e]) (hstep : txnStep s.params s.responses e = some t.responses) : TransactionRun t := by
  unfold TransactionRun at h ⊢
  rw [hparams, hlog, txnRun_append, h]
  simp [txnRun, hstep]

/-- A run that recorded nothing more and left the responses alone is a run still. -/
theorem transactionRun_congr {t : State} (h : TransactionRun s) (hparams : t.params = s.params)
    (hlog : t.log = s.log) (hresponses : t.responses = s.responses) : TransactionRun t := by
  unfold TransactionRun at h ⊢
  rw [hparams, hlog, hresponses, h]

/-- An offered response is the first of those in flight: its delivery is enabled. -/
theorem txnStep_deliver_headResponse (hvalid : s.rspValid = true) :
    txnStep s.params s.responses (.deliver s.headResponse) = some s.responses.tail := by
  obtain ⟨e, rest, hq, -⟩ := s.rspValid_iff.mp hvalid
  simp [txnStep, State.responses, hq, s.headResponse_of_cons hq]

/-- The delivery and the ages of an edge: a `Deliver` of the transaction-level view, or no step of it. -/
theorem transactionRun_beforeAccept (h : TransactionRun s) (take : Bool) : TransactionRun (s.beforeAccept take) := by
  by_cases hdeliver : (take && s.rspValid) = true
  · have hvalid : s.rspValid = true := (Bool.and_eq_true_iff.mp hdeliver).2
    refine transactionRun_of_step h (s.beforeAccept_params take) (e := .deliver s.headResponse) ?_ ?_
    · rw [s.beforeAccept_log, if_pos hdeliver]
    · rw [s.beforeAccept_responses, if_pos hdeliver]
      exact txnStep_deliver_headResponse hvalid
  · refine transactionRun_congr h (s.beforeAccept_params take) ?_ ?_
    · rw [s.beforeAccept_log, if_neg hdeliver, List.append_nil]
    · rw [s.beforeAccept_responses, if_neg hdeliver]

/-- An acceptance into a `Q` with room: an `Accept` of the transaction-level view. -/
theorem transactionRun_accept {r : Request} {rsp : Response} (h : TransactionRun s)
    (hroom : s.q.length < s.params.maxInflight) (hrsp : responseOf s.params r = some rsp) :
    TransactionRun ((s.takeRequest r).respond rsp.data rsp.err) := by
  refine transactionRun_of_step h rfl rfl ?_
  simp [txnStep, State.responses, hroom, hrsp, Entry.response]

/-- Settles O53, by the three things a step can have done. -/
theorem everyRunIsATransactionRun : Obligations.EveryRunIsATransactionRun := by
  intro s t h hstep
  rcases step_cases hstep with
    ⟨offer, -, -, rfl⟩ | ⟨r, take, rsp, -, -, hready, hrsp, rfl⟩ | ⟨offer, take, -, -, -, rfl⟩
  case inl => exact transactionRun_of_step h rfl rfl rfl
  case inr.inl =>
    exact transactionRun_accept (transactionRun_beforeAccept h take) (State.beforeAccept_room hready take)
      (by simpa using hrsp)
  case inr.inr => exact transactionRun_congr (transactionRun_beforeAccept h take) rfl rfl rfl

/-- Settles O54: nothing is recorded yet and `Q` is empty. -/
theorem resetStartsATransactionRun : Obligations.ResetStartsATransactionRun := rfl

end Sys2Proof.Machine
end

section
/-! Proofs of the statements about one edge: what it does to `Q` and to the outputs (R34, R35), the command it runs, and
what reset leaves (R37). -/

namespace Sys2Proof.Machine

open Sys2Proof.Reference

/-! ### The commands (R34, R200) -/

/-- Settles O20: every command answers. -/
theorem commandsOnlyAppendToTheQueue : Obligations.CommandsOnlyAppendToTheQueue := by
  intro i s t h
  obtain ⟨d, hd⟩ := exec_answers i
  have ht : s.respond (d s.params.negMap) errNone = t := by simpa [hd, answer] using h
  subst ht
  exact ⟨rfl, rfl, rfl, rfl, rfl, d s.params.negMap, rfl⟩

/-- The state in which an accepted request is executed, field by field (R34). -/
theorem State.takeRequest_beforeAccept (s : State) (take : Bool) (r : Request) :
    (s.beforeAccept take).takeRequest r =
      { params := s.params
        q := (if take && s.rspValid then s.q.tail else s.q).map Entry.older
        waiting := none
        pins := s.pins.tail
        cycle := s.cycle + 1
        log := s.log ++ (if take && s.rspValid then [.deliver s.headResponse] else []) ++ [.accept r] } := by
  rw [← s.beforeAccept_params take, ← s.beforeAccept_q, ← s.beforeAccept_pins take, ← s.beforeAccept_cycle take,
    ← s.beforeAccept_log]
  rfl

/-- Settles O42: the edge is one of R34 that accepts the request. -/
theorem stepRunsTheDecodedCommand : Obligations.StepRunsTheDecodedCommand := by
  intro s r take i hpins hwaiting hroom hdecode
  have hheld : s.offerHeld (some (some r)) = true := by
    rcases hwaiting with h | h <;> simp [State.offerHeld, h]
  have hready : s.reqReady = true := s.reqReady_iff.mpr hroom
  calc step s = runEdge (some r) take s := step_of_known_levels hpins hheld
    _ = execRequest r ((s.beforeAccept take).takeRequest r) := by simp [runEdge, hready]
    _ = exec i ((s.beforeAccept take).takeRequest r) := by simp [execRequest, hdecode]
    _ = exec i _ := congrArg (exec i) (s.takeRequest_beforeAccept take r)

/-! ### The edges with `rst = 0` (R34, R35) -/

/-- R34: the response to the request on the port, and what an edge leaves in `Q`, whether or not it accepts. -/
theorem runEdge_queue (s : State) (valid take : Bool) (r : Request) :
    ∃ t rsp, runEdge (offerOf valid r) take s = .next t ∧ responseOf s.params r = some rsp ∧
      t.q = (if take && s.rspValid then s.q.tail else s.q).map Entry.older
          ++ (if valid && s.reqReady then [freshEntry rsp] else []) := by
  rw [← s.beforeAccept_q]
  rcases runEdge_cases (offerOf valid r) take s with ⟨r', rsp, hoffer, hready, hrsp, hedge⟩ | ⟨hnone, hedge⟩
  case inl =>
    obtain ⟨rfl, rfl⟩ : valid = true ∧ r = r' := by simpa [offerOf] using hoffer
    exact ⟨_, rsp, hedge, hrsp, by simp [hready, freshEntry]⟩
  case inr =>
    obtain ⟨rsp, hrsp, -⟩ := execRequest_of_responseOf r s
    have hno_accept : (valid && s.reqReady) = false := by
      rcases hnone with h | h
      · have hvalid : valid = false := by simpa [offerOf] using h
        simp [hvalid]
      · simp [h]
    exact ⟨_, rsp, hedge, hrsp, by simp [hno_accept]⟩

/-- Settles O43: the outputs are read from `Q`, and the edge is one of R34. -/
theorem edgeFollowsTheQueueRules : Obligations.EdgeFollowsTheQueueRules := by
  intro s valid take r hpins hheld
  refine ⟨s.reqReady_iff, s.rspValid_iff, fun e rest hq hage => (State.outputs_of_old_head hq hage).2, ?_⟩
  rw [step_of_known_levels hpins (offerHeld_of_held hheld (by rw [hpins]) (by rw [hpins]))]
  exact runEdge_queue s valid take r

/-- Settles O44: the head of `Q` stays its head and only grows older. -/
theorem offeredResponseStays : Obligations.OfferedResponseStays := by
  intro s valid r hpins hheld hvalid
  obtain ⟨e, rest, hq, hage⟩ := s.rspValid_iff.mp hvalid
  obtain ⟨-, -, -, t, rsp, hstep, -, htq⟩ := edgeFollowsTheQueueRules s valid false r hpins hheld
  obtain ⟨hparams, -⟩ := stepFrame s t hstep
  rw [hq] at htq
  obtain ⟨-, hdata, herr⟩ := State.outputs_of_old_head hq hage
  obtain ⟨hvalid', hdata', herr'⟩ :=
    State.outputs_of_old_head (s := t) (e := e.older) htq (by rw [hparams]; exact Nat.le_succ_of_le hage)
  exact ⟨t, hstep, hvalid', hdata'.trans hdata.symm, herr'.trans herr.symm⟩

/-! ### Reset (R37) and the constants (R24 to R26) -/

/-- Settles O40: `Q` is empty and `MAX_INFLIGHT` at least 1; the constants are compared. -/
theorem resetLeavesAnEmptyQueue : Obligations.ResetLeavesAnEmptyQueue := by
  have hready : State.reset.reqReady = true := State.reset.reqReady_iff.mpr (Nat.succ_pos Config.extraInflight)
  exact ⟨rfl, hready, rfl, rfl, rfl, by decide⟩

end Sys2Proof.Machine
end

section
/-! Proof that no step reads the record (log entry 5): each part of an edge commutes with a change of what was recorded
before it. -/

namespace Sys2Proof.Machine

/-- `s` with its first `n` recorded events exchanged for `l`. -/
def State.withPast (n : Nat) (l : List Event) (s : State) : State := { s with log := l ++ s.log.drop n }

/-- The same change to the next state of an outcome. -/
def outcomeWithPast (n : Nat) (l : List Event) : Host.Outcome State Fault Refusal → Host.Outcome State Fault Refusal
  | .next t => .next (t.withPast n l)
  | .fault f => .fault f
  | .refused x => .refused x

theorem State.withPast_all (l : List Event) (s : State) : s.withPast s.log.length l = { s with log := l } := by
  simp [State.withPast]

theorem execRequest_withPast (n : Nat) (l : List Event) (r : Request) (s : State) :
    execRequest r (s.withPast n l) = outcomeWithPast n l (execRequest r s) := by
  obtain ⟨rsp, h⟩ := execRequest_responds r
  rw [h, h]
  rfl

section
variable {n : Nat} (l : List Event) {s : State} (hn : n ≤ s.log.length)
include hn

/-- Events recorded later do not belong to the past that is exchanged. -/
theorem State.withPast_record (es : List Event) :
    { s.withPast n l with log := (s.withPast n l).log ++ es } = { s with log := s.log ++ es }.withPast n l := by
  simp [State.withPast, List.drop_append_of_le_length hn]

theorem State.deliver_withPast (take : Bool) : (s.withPast n l).deliver take = (s.deliver take).withPast n l := by
  have hvalid : (s.withPast n l).rspValid = s.rspValid := rfl
  unfold State.deliver
  rw [hvalid]
  split
  · exact State.withPast_record (s := { s with q := s.q.tail }) l hn [.deliver s.headResponse]
  · rfl

theorem State.beforeAccept_withPast (take : Bool) :
    (s.withPast n l).beforeAccept take = (s.beforeAccept take).withPast n l :=
  congrArg State.ageQueue (State.deliver_withPast (s := s.nextCycle) l hn take)

theorem State.takeRequest_withPast (r : Request) : (s.withPast n l).takeRequest r = (s.takeRequest r).withPast n l :=
  State.withPast_record (s := { s with waiting := none }) l hn [.accept r]

theorem State.resetEdge_withPast (offer : Option Offer) :
    (s.withPast n l).resetEdge offer = (s.resetEdge offer).withPast n l :=
  State.withPast_record (s := { s.nextCycle with q := [], waiting := offer }) l hn [.reset]

theorem runEdge_withPast (offer : Option Request) (take : Bool) :
    runEdge offer take (s.withPast n l) = outcomeWithPast n l (runEdge offer take s) := by
  have hbefore := State.beforeAccept_withPast l hn take
  cases offer with
  | none =>
    simp only [runEdge, hbefore]
    rfl
  | some r =>
    have hready : (s.withPast n l).reqReady = s.reqReady := rfl
    obtain ⟨events, hlog, -⟩ := s.beforeAccept_log_events take
    have hn' : n ≤ (s.beforeAccept take).log.length := by
      rw [hlog, List.length_append]
      exact Nat.le_add_right_of_le hn
    simp only [runEdge, hready, hbefore]
    split
    · rw [State.takeRequest_withPast l hn', execRequest_withPast]
    · rfl

/-- A step commutes with an exchange of what was recorded before it. -/
theorem step_withPast : step (s.withPast n l) = outcomeWithPast n l (step s) := by
  have hpins : (s.withPast n l).pinsNow = s.pinsNow := rfl
  have hheld (offer : Option Offer) : (s.withPast n l).offerHeld offer = s.offerHeld offer := rfl
  cases h : samplePins s.pinsNow with
  | unknown =>
    rw [step_of_unknown (hpins ▸ h), step_of_unknown h]
    rfl
  | resetting offer =>
    rw [step_of_resetting (hpins ▸ h), step_of_resetting h, hheld, State.resetEdge_withPast l hn]
    split <;> rfl
  | running offer take =>
    rw [step_of_running (hpins ▸ h), step_of_running h, hheld, runEdge_withPast l hn]
    split <;> rfl

end

/-- Settles O59: the whole record so far is exchanged. -/
theorem theRecordIsNeverRead : Obligations.TheRecordIsNeverRead := by
  intro s l
  rw [← s.withPast_all l, step_withPast l le_rfl]
  cases step s <;> rfl

end Sys2Proof.Machine
end

section
/-! Proofs of the statements about the bytes of requests and responses (R53, R70, R76): the byte string of a request
carries it back, and the encoder's request decodes to the command (R73, R74, R78). -/

namespace Sys2Proof

/-! ### Bytes (R53) -/

theorem leBytes_getElem? {w n k : Nat} (v : BitVec w) (hk : k < n) :
    (leBytes n v)[k]? = some (v.extractLsb' (8 * k) 8) := by
  simp [leBytes, hk]

@[simp] theorem Request.toBytes_length (r : Request) : r.toBytes.length = 21 := leBytes_length 21 r.pack

/-- The 21 bytes of a request carry all 168 bits of it, so reading them gives the request back (R70). -/
@[simp] theorem Request.ofBytes_toBytes (r : Request) : Request.ofBytes r.toBytes = some r := by
  have hword : BitVec.ofNat 168 (leNat r.toBytes) = r.pack :=
    BitVec.eq_of_toNat_eq (by simpa [Request.toBytes, leNat_leBytes] using r.pack.isLt)
  rw [Request.ofBytes, if_pos r.toBytes_length, hword, r.unpack_pack]

/-- Settles O7: each byte is the slice that `leBytes` cuts, and each field the one that `Request.unpack` reads. -/
theorem packedWordsAreLittleEndian : Obligations.PackedWordsAreLittleEndian := by
  constructor
  · intro rsp
    have hbyte (k : Nat) (hk : k < 9) : rsp.toBytes[k]? = some (rsp.pack.extractLsb' (8 * k) 8) :=
      leBytes_getElem? rsp.pack hk
    exact ⟨fun k hk => hbyte k (hk.trans (by decide)), by simp [hbyte 8 (by decide)]⟩
  · intro r
    have hfields := r.unpack_pack
    exact ⟨r.toBytes_length, fun k hk => leBytes_getElem? r.pack hk,
      congrArg Request.cmd hfields, congrArg Request.x hfields, congrArg Request.y hfields,
      congrArg Request.z hfields, congrArg Request.t hfields, congrArg Request.seed hfields, r.ofBytes_toBytes⟩

/-! ### Commands (R73, R74, R78) -/

@[simp] theorem decodeBytes_toBytes (r : Request) : decodeBytes r.toBytes = decode r := by
  simp [decodeBytes]

/-- The round trip of every command, from the family of `Laws.RoundTrip`. -/
@[simp] theorem decode_encode (i : Instr) : decode (encode i) = .instr i := by
  cases i with
  | noiseRaw1d x seed => exact Laws.RoundTrip.noiseRaw1d x seed
  | noiseRaw2d x y seed => exact Laws.RoundTrip.noiseRaw2d x y seed
  | noiseRaw3d x y z seed => exact Laws.RoundTrip.noiseRaw3d x y z seed
  | noiseRaw4d x y z t seed => exact Laws.RoundTrip.noiseRaw4d x y z t seed
  | noiseZeroOne1d f x seed => exact Laws.RoundTrip.noiseZeroOne1d f x seed
  | noiseZeroOne2d f x y seed => exact Laws.RoundTrip.noiseZeroOne2d f x y seed
  | noiseZeroOne3d f x y z seed => exact Laws.RoundTrip.noiseZeroOne3d f x y z seed
  | noiseZeroOne4d f x y z t seed => exact Laws.RoundTrip.noiseZeroOne4d f x y z t seed
  | noiseNegOne1d f x seed => exact Laws.RoundTrip.noiseNegOne1d f x seed
  | noiseNegOne2d f x y seed => exact Laws.RoundTrip.noiseNegOne2d f x y seed
  | noiseNegOne3d f x y z seed => exact Laws.RoundTrip.noiseNegOne3d f x y z seed
  | noiseNegOne4d f x y z t seed => exact Laws.RoundTrip.noiseNegOne4d f x y z t seed
  | fold1d x => exact Laws.RoundTrip.fold1d x
  | fold2d x y => exact Laws.RoundTrip.fold2d x y
  | fold3d x y z => exact Laws.RoundTrip.fold3d x y z
  | fold4d x y z t => exact Laws.RoundTrip.fold4d x y z t
  | mapZeroOne f n => exact Laws.RoundTrip.mapZeroOne f n
  | mapNegOne f n => exact Laws.RoundTrip.mapNegOne f n

/-- Settles O1: the bytes give back the request of the command, which decodes to the command. -/
theorem encodedBytesDecodeToTheCommand : Obligations.EncodedBytesDecodeToTheCommand := by
  intro i
  calc decodeBytes (encodeBytes i) = decode (encode i) := decodeBytes_toBytes (encode i)
    _ = .instr i := decode_encode i

/-- Settles O2: five closed byte strings, each decoded by evaluation. -/
theorem writtenOutBytesDecodeRight : Obligations.WrittenOutBytesDecodeRight :=
  ⟨by decide, by decide, by decide, by decide, by decide⟩

end Sys2Proof
end

section
/-! Proof that the responses stay in the order of the requests (R57). Order is a fact about the transaction-level view
(R36): each of its steps keeps the record matched, and every edge of the block is a run of such steps. -/

namespace Sys2Proof.Machine

/-! ### Order in the transaction-level view -/

/-- R57 for a record and the responses in flight: the requests accepted have the responses delivered and then those in
flight, in order, one each. -/
def Ledger.Matched (p : Params) (l : Ledger) (q : List Response) : Prop :=
  l.accepted.map (responseOf p) = (l.delivered ++ q).map some

/-- `State.InOrder` is that property of the block's own record and `Q`. -/
theorem State.inOrder_iff (s : State) : s.InOrder ↔ (ledgerOf s.log).Matched s.params s.responses := Iff.rfl

variable {p : Params} {q q' : List Response}

/-- One enabled step keeps the record matched: an acceptance lengthens both sides by the same response, a delivery moves
one from those in flight to those delivered, and a reset empties both sides. -/
theorem Ledger.Matched.note {l : Ledger} {e : Event} (h : l.Matched p q) (hstep : txnStep p q e = some q') :
    (l.note e).Matched p q' := by
  unfold Ledger.Matched at h ⊢
  cases e with
  | accept r =>
    obtain ⟨-, rsp, hrsp, rfl⟩ : q.length < p.maxInflight ∧ ∃ rsp, responseOf p r = some rsp ∧ q ++ [rsp] = q' := by
      simpa [txnStep] using hstep
    simp [Ledger.note, h, hrsp]
  | deliver rsp =>
    cases q with
    | nil => cases hstep
    | cons head rest =>
      obtain ⟨rfl, rfl⟩ : head = rsp ∧ rest = q' := by simpa [txnStep] using hstep
      simp [Ledger.note, h]
  | reset =>
    obtain rfl : [] = q' := by simpa [txnStep] using hstep
    rfl

/-- A run of enabled steps keeps the record matched. -/
theorem Ledger.Matched.run {events : List Event} {l : Ledger} (h : l.Matched p q)
    (hrun : txnRun p q events = some q') : (events.foldl Ledger.note l).Matched p q' := by
  induction events generalizing l q with
  | nil =>
    obtain rfl : q = q' := by simpa [txnRun] using hrun
    exact h
  | cons e rest ih =>
    cases hstep : txnStep p q e with
    | none => simp [txnRun, hstep] at hrun
    | some q₁ => exact ih (h.note hstep) (by simpa [txnRun, hstep] using hrun)

/-! ### The edges of the block as runs of it -/

/-- The delivery and the ages of an edge record a `Deliver` or nothing (R34, R36). -/
theorem txnRun_beforeAccept (s : State) (take : Bool) :
    ∃ events, (s.beforeAccept take).log = s.log ++ events ∧
      txnRun s.params s.responses events = some (s.beforeAccept take).responses := by
  refine ⟨_, s.beforeAccept_log take, ?_⟩
  rw [s.beforeAccept_responses]
  split
  · next hdeliver =>
    have hvalid : s.rspValid = true := (Bool.and_eq_true_iff.mp hdeliver).2
    simp [txnRun, txnStep_deliver_headResponse hvalid]
  · rfl

/-- Every step of the block records a run of the transaction-level view, from any `Q` to the next one (R36). -/
theorem txnRun_of_step {s t : State} (hstep : step s = .next t) :
    ∃ events, t.log = s.log ++ events ∧ txnRun s.params s.responses events = some t.responses := by
  rcases step_cases hstep with
    ⟨offer, -, -, rfl⟩ | ⟨r, take, rsp, -, -, hready, hrsp, rfl⟩ | ⟨offer, take, -, -, -, rfl⟩
  case inl => exact ⟨[.reset], rfl, rfl⟩
  case inr.inl =>
    obtain ⟨events, hlog, hrun⟩ := txnRun_beforeAccept s take
    have hroom : (s.beforeAccept take).q.length < s.params.maxInflight := by
      simpa using State.beforeAccept_room hready take
    refine ⟨events ++ [.accept r], by simp [hlog], ?_⟩
    rw [txnRun_append, hrun]
    simp [txnRun, txnStep, hroom, hrsp, State.responses, Entry.response]
  case inr.inr => exact txnRun_beforeAccept s take

/-- Settles O51: a step records a run of the transaction-level view, and such a run keeps the record matched. -/
theorem responsesStayInOrder : Obligations.ResponsesStayInOrder := by
  intro s t h hstep
  obtain ⟨events, hlog, hrun⟩ := txnRun_of_step hstep
  obtain ⟨hparams, -⟩ := stepFrame s t hstep
  rw [t.inOrder_iff, hlog, ledgerOf_append, hparams]
  exact (s.inOrder_iff.mp h).run hrun

/-- Settles O52: nothing is recorded yet and `Q` is empty. -/
theorem resetIsInOrder : Obligations.ResetIsInOrder := rfl

end Sys2Proof.Machine
end

section
/-! Proofs of the statements about which requests name a command (R72 to R75) and about the layout of a response (R76). -/

namespace Sys2Proof.Machine

open Sys2Proof.Reference

/-! ### Facts about `cmd`, over its 256 values (R71, R73, R75) -/

/-- R73, R74: a legal `cmd` matches one row of the opcode table, any other none. -/
theorem rowsMatching_eq_legal : ∀ cmd : BitVec 8, rowsMatching cmd = (legal cmd).toNat := by decide

/-- R74, R75: the reserved values are the ones that are not legal. -/
theorem legal_eq_not_reserved : ∀ cmd : BitVec 8, legal cmd = !reserved cmd := by decide

/-- All but the 28 legal values of `cmd` are reserved. -/
theorem length_filter_reserved : (allCmds.filter reserved).length = 228 := by
  have hall : allCmds.length = 256 := by simp [allCmds]
  have hlegal : (allCmds.filter fun c => !reserved c).length = 28 := by decide
  have hsplit := List.length_eq_length_filter_add (l := allCmds) reserved
  omega

/-- `cmd[7]` is set in the upper half of the values, and nowhere else. -/
theorem length_filter_reservedBit : (allCmds.filter fun c => c.extractLsb' 7 1 = 1#1).length = 128 := by
  have hlow : (allCmds.take 128).filter (fun c => c.extractLsb' 7 1 = 1#1) = [] := by decide
  have hhigh : (allCmds.drop 128).filter (fun c => c.extractLsb' 7 1 = 1#1) = allCmds.drop 128 :=
    List.filter_eq_self.mpr (by decide)
  rw [← List.take_append_drop 128 allCmds, List.filter_append, hlow, hhigh]
  simp [allCmds]

/-! ### What the decoder answers (R72, R74) -/

/-- R74: the decoder finds a row for the fields of `cmd` exactly where `legal` accepts them. -/
theorem exists_instr_iff_legal (r : Request) : (∃ i, decode r = .instr i) ↔ legal r.cmd = true := by
  unfold decode legal
  cases cmdRsv r.cmd with
  | true => simp
  | false =>
    generalize cmdClass r.cmd = c, cmdForm r.cmd = f, cmdPrec r.cmd = p, cmdDim r.cmd = d
    simp only [Bool.false_eq_true, if_false]
    fun_cases decodeFields r c f p d <;> simp

/-- The decoder gives a reason exactly where it gives no command. -/
theorem exists_illegal_iff_not_legal (r : Request) : (∃ why, decode r = .illegal why) ↔ legal r.cmd = false := by
  rw [← Bool.not_eq_true, ← exists_instr_iff_legal]
  cases decode r <;> simp

/-- Settles O3: the decoder and the table both follow `legal`. -/
theorem legalCmdMatchesExactlyOneRow : Obligations.LegalCmdMatchesExactlyOneRow := by
  intro r
  rw [exists_instr_iff_legal, exists_illegal_iff_not_legal, rowsMatching_eq_legal]
  cases legal r.cmd <;> simp

/-- Settles O4: the counts run over the 256 values, and a reserved `cmd` is not legal, so it is not decoded. -/
theorem reservedCmdAnswersTheError : Obligations.ReservedCmdAnswersTheError := by
  refine ⟨length_filter_reserved, length_filter_reservedBit, by decide, by decide, by decide, by decide, by decide,
    legal_eq_not_reserved, ?_⟩
  intro r s hreserved
  have hlegal : legal r.cmd = false := by rw [legal_eq_not_reserved, hreserved]; rfl
  obtain ⟨why, hdecode⟩ := (exists_illegal_iff_not_legal r).mpr hlegal
  simp only [execRequest, hdecode]
  rfl

/-! ### The fields a command reads (R72) -/

/-- R72: each row of the table takes from the request only what a command of its class and dimension reads. -/
theorem decodeFields_congr {a b : Request} {c : CmdClass} {d : Dim} (f : Form) (p : Prec) (hx : a.x = b.x)
    (hy : c ≠ .map ∧ d ≠ .d1 → a.y = b.y) (hz : c ≠ .map ∧ (d = .d3 ∨ d = .d4) → a.z = b.z)
    (ht : c ≠ .map ∧ d = .d4 → a.t = b.t) (hseed : c = .noise → a.seed = b.seed) :
    decodeFields a c f p d = decodeFields b c f p d := by
  fun_cases decodeFields a c f p d
  -- The NOISE and FOLD rows, whose operands `DIM` decides; the others read `x` or nothing.
  case case1 | case3 | case4 | case6 =>
    cases d <;> simp_all [decodeFields, noiseRawOf, noiseZeroOneOf, noiseNegOneOf, foldOf]
  all_goals simp [decodeFields, hx]

/-- The response depends on what the request decodes to. -/
theorem responseOf_congr {a b : Request} (p : Params) (h : decode a = decode b) : responseOf p a = responseOf p b := by
  simp only [responseOf, execRequest, h]

/-- Settles O6: the fields of `cmd` name the same row, which takes the same operands from both requests. -/
theorem unreadFieldsNeverMatter : Obligations.UnreadFieldsNeverMatter := by
  intro p a b hcmd hx hy hz ht hseed
  have hdecode : decode a = decode b := by
    simp only [decode, ← hcmd, decodeFields_congr (cmdForm a.cmd) (cmdPrec a.cmd) hx hy hz ht hseed]
  exact ⟨hdecode, responseOf_congr p hdecode⟩

/-! ### The layout of a response (R76) -/

/-- A word in `data[31:0]` leaves `data[63:32]` zero. -/
theorem rawData_high (n : Word) : (rawData n).extractLsb' 32 32 = 0#32 := by
  apply BitVec.eq_of_getLsbD_eq
  intro k hk
  simp [rawData]

/-- Raw noise and binary32 results are placed as a word is: a binary32 pattern has 32 bits. -/
theorem exec_answersInLowHalf {i : Instr} (h : answersInLowHalf i = true) (s : State) :
    ∃ n : Word, exec i s = answer (rawData n) s := by
  cases i with
  | noiseRaw1d | noiseRaw2d | noiseRaw3d | noiseRaw4d => exact ⟨_, rfl⟩
  | fold1d | fold2d | fold3d | fold4d => cases h
  | noiseZeroOne1d f | noiseZeroOne2d f | noiseZeroOne3d f | noiseZeroOne4d f | noiseNegOne1d f | noiseNegOne2d f
  | noiseNegOne3d f | noiseNegOne4d f | mapZeroOne f | mapNegOne f =>
    obtain rfl : f = .binary32 := of_decide_eq_true h
    exact ⟨_, rfl⟩

/-- Settles O8: the fields are those `Response.unpack` reads, and the commands named answer with a word. -/
theorem responseLayout : Obligations.ResponseLayout := by
  constructor
  · intro rsp
    have hfields := rsp.unpack_pack
    exact ⟨congrArg Response.data hfields, congrArg Response.err hfields, hfields⟩
  · intro i s hlow
    obtain ⟨n, hexec⟩ := exec_answersInLowHalf hlow s
    exact ⟨rawData n, hexec, rawData_high n⟩

end Sys2Proof.Machine
end

section
/-! Proofs of the statements about written commands (R78 to R80): what a name stands for, what the assembler accepts and
rejects, and that the request it writes is the encoder's. -/

namespace Sys2Proof.Machine

open Sys2Proof.Reference

/-! ### Aliases (R79) -/

/-- A name matters to the assembler only through the `cmd` it stands for. -/
theorem assemble_congr_name {a b : String} (h : cmdOfName a = cmdOfName b) (ops : List Literal) :
    assemble ⟨a, ops⟩ = assemble ⟨b, ops⟩ := by
  simp only [assemble, h]

/-- R79: an alias has the `cmd` of the mnemonic it expands to. -/
theorem cmdOfName_alias : ∀ p ∈ aliasNames, cmdOfName p.1 = cmdOfName p.2 := by decide

/-- Settles O11: the fifteen pairs of the statement are the table `aliasNames`. -/
theorem aliasesExpand : Obligations.AliasesExpand := by
  intro ops
  have h : ∀ p ∈ aliasNames, assemble ⟨p.1, ops⟩ = assemble ⟨p.2, ops⟩ :=
    fun p hp => assemble_congr_name (cmdOfName_alias p hp) ops
  simpa only [aliasNames, List.cons_append, List.nil_append, List.forall_mem_cons, List.not_mem_nil, false_imp_iff,
    implies_true, and_true] using h

/-! ### Operands (R78, R80) -/

/-- R80: a decimal operand becomes its two's-complement pattern. -/
theorem literalWord_dec (n : Int) : literalWord (.dec n) = BitVec.ofInt 32 n := by
  apply BitVec.eq_of_toNat_eq
  rw [literalWord, u32_toNat, BitVec.toNat_ofInt]
  rfl

/-- R80: each group of four bits is a digit, the last one lowest. -/
theorem literalWord_hex_digit {ds : List (Fin 16)} (hlen : ds.length ≤ 8) (k : Nat) :
    (literalWord (.hex ds)).extractLsb' (4 * k) 4 = BitVec.ofNat 4 (ds.reverse.getD k 0).val := by
  have hfit : hexNat ds < 2 ^ 32 :=
    calc hexNat ds < 16 ^ ds.length := hexNat_lt ds
      _ ≤ 16 ^ 8 := Nat.pow_le_pow_right (by decide) hlen
  have hdigit := hexNat_digit ds.reverse k
  rw [List.reverse_reverse] at hdigit
  apply BitVec.eq_of_toNat_eq
  rw [← hdigit, BitVec.extractLsb'_toNat, literalWord, BitVec.toNat_ofNat, Nat.mod_eq_of_lt hfit,
    Nat.shiftRight_eq_div_pow, BitVec.toNat_ofNat, pow_mul, Nat.mod_mod]
  rfl

/-- The model's check of an operand is R78's. -/
theorem wellFormed_iff_operandOk (map : Bool) (o : Literal) : o.wellFormed map = true ↔ operandOk map o := by
  cases o with
  | hex ds => simp [Literal.wellFormed, operandOk]
  | dec n =>
    cases map <;> simp only [Literal.wellFormed, operandOk, Bool.false_eq_true, if_true, if_false, Bool.and_eq_true,
      decide_eq_true_eq] <;> omega

/-! ### What the assembler answers (R78) -/

theorem mapClass_eq_isMapCmd : ∀ cmd : BitVec 8, decide (cmdClass cmd = .map) = isMapCmd cmd := by decide

/-- R78: the operands of the rows of R73 are as many as R78 counts, and the rows are legal. -/
theorem commandNames_rows :
    ∀ p ∈ commandNames, (operandFields p.2).length = operandCountOf p.2 ∧ legal p.2 = true := by decide

/-- The two checks and the request, on R78's own terms. -/
theorem assemble_of_operandOk {w : Written} {cmd : BitVec 8} (hcmd : cmdOfName w.name = some cmd)
    (hcount : w.operands.length = (operandFields cmd).length) (hok : ∀ o ∈ w.operands, operandOk (isMapCmd cmd) o) :
    assemble w =
      .request (((operandFields cmd).zip (w.operands.map literalWord)).foldl setField ⟨cmd, 0, 0, 0, 0, 0⟩) := by
  have hall : w.operands.all (Literal.wellFormed (isMapCmd cmd)) = true :=
    List.all_eq_true.mpr fun o ho => (wellFormed_iff_operandOk _ o).mpr (hok o ho)
  rw [assemble_of_cmdOfName hcmd, mapClass_eq_isMapCmd, if_neg (not_not.mpr hcount), if_pos hall]

/-- Settles O12: the count is checked first, then each operand. -/
theorem assemblerRejectsOtherOperands : Obligations.AssemblerRejectsOtherOperands := by
  intro w cmd hcmd
  obtain ⟨p, hp, rfl⟩ := exists_row_of_cmdOfName hcmd
  obtain ⟨hlength, -⟩ := commandNames_rows p hp
  rw [assemble_of_cmdOfName hcmd, mapClass_eq_isMapCmd, hlength]
  refine ⟨fun hcount => if_pos hcount, ?_⟩
  rintro hcount ⟨o, ho, hbad⟩
  have hall : ¬ w.operands.all (Literal.wellFormed (isMapCmd p.2)) = true := by
    intro hall
    exact hbad ((wellFormed_iff_operandOk _ o).mp (List.all_eq_true.mp hall o ho))
  rw [if_neg (not_not.mpr hcount), if_neg hall]

/-- R73, R78: each table of names lists names of commands with those operand fields. -/
theorem written_names_rows :
    (∀ p ∈ noise1dNames, cmdOfName p.1 = some p.2 ∧ operandFields p.2 = [.x, .seed] ∧ isMapCmd p.2 = false) ∧
    (∀ p ∈ noise2dNames, cmdOfName p.1 = some p.2 ∧ operandFields p.2 = [.x, .y, .seed] ∧ isMapCmd p.2 = false) ∧
    (∀ p ∈ noise3dNames, cmdOfName p.1 = some p.2 ∧ operandFields p.2 = [.x, .y, .z, .seed] ∧ isMapCmd p.2 = false) ∧
    (∀ p ∈ noise4dNames, cmdOfName p.1 = some p.2 ∧ operandFields p.2 = [.x, .y, .z, .t, .seed] ∧
      isMapCmd p.2 = false) ∧
    ∀ p ∈ mapNames, cmdOfName p.1 = some p.2 ∧ operandFields p.2 = [.x] ∧ isMapCmd p.2 = true := by decide

/-- The request of a written command whose row is known: each operand in its field. -/
theorem assemble_row {name : String} {cmd : BitVec 8} {fields : List Field} {map : Bool} {ops : List Literal}
    (hrow : cmdOfName name = some cmd ∧ operandFields cmd = fields ∧ isMapCmd cmd = map)
    (hcount : ops.length = fields.length) (hok : ∀ o ∈ ops, operandOk map o) :
    assemble ⟨name, ops⟩ = .request ((fields.zip (ops.map literalWord)).foldl setField ⟨cmd, 0, 0, 0, 0, 0⟩) := by
  obtain ⟨hcmd, rfl, rfl⟩ := hrow
  exact assemble_of_operandOk hcmd hcount hok

/-- Settles O10: the names' rows give the fields, and the operands fill them one after the other. -/
theorem operandsFillTheirFields : Obligations.OperandsFillTheirFields := by
  obtain ⟨h1d, h2d, h3d, h4d, hmap⟩ := written_names_rows
  refine ⟨literalWord_dec, fun ds hlen k _ => literalWord_hex_digit hlen k, ?_, ?_⟩
  · intro a b c d e ha hb hc hd he
    exact ⟨fun p hp => assemble_row (h1d p hp) rfl (by simp [ha, he]),
      fun p hp => assemble_row (h2d p hp) rfl (by simp [ha, hb, he]),
      fun p hp => assemble_row (h3d p hp) rfl (by simp [ha, hb, hc, he]),
      fun p hp => assemble_row (h4d p hp) rfl (by simp [ha, hb, hc, hd, he]),
      assemble_row (map := false) (fields := [.x]) (by decide) rfl (by simp [ha]),
      assemble_row (map := false) (fields := [.x, .y]) (by decide) rfl (by simp [ha, hb]),
      assemble_row (map := false) (fields := [.x, .y, .z]) (by decide) rfl (by simp [ha, hb, hc]),
      assemble_row (map := false) (fields := [.x, .y, .z, .t]) (by decide) rfl (by simp [ha, hb, hc, hd])⟩
  · intro n hn p hp
    exact assemble_row (hmap p hp) rfl (by simp [hn])

/-! ### The fields that no operand fills (R78) -/

/-- The word in a field that an operand can fill. -/
def fieldOf (r : Request) : Field → Word
  | .x => r.x
  | .y => r.y
  | .z => r.z
  | .t => r.t
  | .seed => r.seed

theorem request_ext {a b : Request} (hcmd : a.cmd = b.cmd) (hfields : ∀ g, fieldOf a g = fieldOf b g) : a = b := by
  cases a
  cases b
  simpa [Request.mk.injEq] using
    ⟨hcmd, hfields .x, hfields .y, hfields .z, hfields .t, hfields .seed⟩

@[simp] theorem setField_cmd (r : Request) (p : Field × Word) : (setField r p).cmd = r.cmd := by
  obtain ⟨f, w⟩ := p
  cases f <;> rfl

theorem fieldOf_setField (r : Request) (f : Field) (w : Word) :
    fieldOf (setField r (f, w)) = Function.update (fieldOf r) f w := by
  funext g
  cases f <;> cases g <;> rfl

theorem foldl_setField_cmd (l : List (Field × Word)) (r : Request) : (l.foldl setField r).cmd = r.cmd := by
  induction l generalizing r with
  | nil => rfl
  | cons p l ih => rw [List.foldl_cons, ih, setField_cmd]

/-- Operands leave alone every field that is not among theirs. -/
theorem fieldOf_foldl_setField {g : Field} (l : List (Field × Word)) (hg : ∀ p ∈ l, p.1 ≠ g) (r : Request) :
    fieldOf (l.foldl setField r) g = fieldOf r g := by
  induction l generalizing r with
  | nil => rfl
  | cons p l ih =>
    obtain ⟨hp, hl⟩ := List.forall_mem_cons.mp hg
    rw [List.foldl_cons, ih hl, fieldOf_setField, Function.update_of_ne hp.symm]

/-! ### The encoder on a decoded request (R73, R78) -/

/-- A `cmd` with `RSV = 0`, put together from its fields; each field's values stand in the order of R71. -/
def cmdOfFields (c : CmdClass) (f : Form) (p : Prec) (d : Dim) : BitVec 8 :=
  BitVec.ofNat 8 (64 * p.ctorIdx + 16 * c.ctorIdx + 4 * f.ctorIdx + d.ctorIdx)

theorem eq_cmdOfFields : ∀ cmd : BitVec 8, cmdRsv cmd = false →
    cmd = cmdOfFields (cmdClass cmd) (cmdForm cmd) (cmdPrec cmd) (cmdDim cmd) := by decide

/-- A row's command is encoded with the row's `cmd`, its operands, and 0 everywhere else. -/
theorem encode_of_decodeFields {r : Request} {c : CmdClass} {f : Form} {p : Prec} {d : Dim} {i : Instr}
    (h : decodeFields r c f p d = .instr i) :
    (encode i).cmd = cmdOfFields c f p d ∧
      ∀ g, fieldOf (encode i) g = if g ∈ operandFields (cmdOfFields c f p d) then fieldOf r g else 0 := by
  revert h
  fun_cases decodeFields r c f p d <;> rintro ⟨⟩
  -- In the NOISE and FOLD rows `DIM` decides the operands, and in the float rows `PREC` is part of `cmd`.
  case case1 | case6 => cases d <;> exact ⟨rfl, fun g => by cases g <;> rfl⟩
  case case3 | case4 => cases d <;> cases p <;> exact ⟨rfl, fun g => by cases g <;> rfl⟩
  all_goals cases p <;> exact ⟨rfl, fun g => by cases g <;> rfl⟩

/-- Encoding a decoded request keeps its `cmd` and the operands it is written with, and writes 0 everywhere else. -/
theorem encode_of_decode {r : Request} {i : Instr} (h : decode r = .instr i) :
    (encode i).cmd = r.cmd ∧
      ∀ g, fieldOf (encode i) g = if g ∈ operandFields r.cmd then fieldOf r g else 0 := by
  cases hrsv : cmdRsv r.cmd with
  | true => simp [decode, hrsv] at h
  | false =>
    rw [decode_of_fields r.cmd _ _ _ _ rfl hrsv rfl rfl rfl rfl] at h
    rw [eq_cmdOfFields r.cmd hrsv]
    exact encode_of_decodeFields h

/-- Whatever the assembler accepts has a known `cmd`, and 0 in every field that no operand fills. -/
theorem assemble_request {w : Written} {r : Request} (h : assemble w = .request r) :
    cmdOfName w.name = some r.cmd ∧ ∀ g ∉ operandFields r.cmd, fieldOf r g = 0 := by
  cases hcmd : cmdOfName w.name with
  | none => simp [assemble, hcmd] at h
  | some cmd =>
    rw [assemble_of_cmdOfName hcmd] at h
    split at h
    · cases h
    · split at h
      · cases h
        rw [foldl_setField_cmd]
        refine ⟨rfl, fun g hg => ?_⟩
        rw [fieldOf_foldl_setField]
        · cases g <;> rfl
        · rintro ⟨f, word⟩ hp rfl
          exact hg (List.of_mem_zip hp).1
      · cases h

/-- Settles O9: the row of the name is legal, and the request is 0 wherever the encoder writes 0. -/
theorem assembledCommandIsCanonical : Obligations.AssembledCommandIsCanonical := by
  intro w r h
  obtain ⟨hname, hunread⟩ := assemble_request h
  obtain ⟨p, hp, hcmd⟩ := exists_row_of_cmdOfName hname
  obtain ⟨-, hlegal⟩ := commandNames_rows p hp
  obtain ⟨i, hdecode⟩ := (exists_instr_iff_legal r).mpr (hcmd ▸ hlegal)
  obtain ⟨hsame, hfields⟩ := encode_of_decode hdecode
  refine ⟨i, hdecode, request_ext hsame fun g => ?_⟩
  rw [hfields]
  split
  · rfl
  · next hg => exact (hunread g hg).symm

end Sys2Proof.Machine
end

section
/-! Proofs of the statements about the bit mixer (R100 to R106): the sanitized seed as an absolute value, the hash computed
on natural numbers, and the laws of R105, which rest on every step of R102 being invertible. -/

namespace Sys2Proof.Machine

open Sys2Proof.Reference

/-! ### The sanitized seed (R100) -/

theorem natAbs_toInt_le (s : Word) : s.toInt.natAbs ≤ 0x80000000 := by
  have hlow : -2147483648 ≤ s.toInt := s.le_toInt
  have hhigh : s.toInt < 2147483648 := s.toInt_lt
  omega

/-- The magnitude of a seed fits in 32 bits, so its reduction does nothing. -/
theorem sanitizeSeed_toNat_eq_natAbs (s : Word) : (sanitizeSeed s).toNat = s.toInt.natAbs := by
  have hfit := natAbs_toInt_le s
  rw [sanitizeSeed_toNat]
  omega

theorem sanitizeSeed_eq_iff (s s' : Word) : sanitizeSeed s = sanitizeSeed s' ↔ s.toInt.natAbs = s'.toInt.natAbs := by
  rw [← BitVec.toNat_inj, sanitizeSeed_toNat_eq_natAbs, sanitizeSeed_toNat_eq_natAbs]

theorem sanitizeSeed_eq_abs (s : Word) : sanitizeSeed s = s.abs := by
  apply BitVec.eq_of_toNat_eq
  have hlt := s.isLt
  rw [sanitizeSeed_toNat_eq_natAbs, BitVec.toNat_abs, BitVec.toInt_eq_msb_cond]
  split <;> omega

/-- `-2^31` is its own negation; every other seed changes its sign. -/
theorem natAbs_toInt_neg (s : Word) : (-s).toInt.natAbs = s.toInt.natAbs := by
  have hlow : -2147483648 ≤ s.toInt := s.le_toInt
  have hhigh : s.toInt < 2147483648 := s.toInt_lt
  rw [BitVec.toInt_neg, Int.bmod_def]
  omega

/-- Settles O23: the sanitized seed is the library's `BitVec.abs`, and a seed and its negation have one magnitude. -/
theorem sanitizeSeedIsTheAbsoluteValue : Obligations.SanitizeSeedIsTheAbsoluteValue := by
  refine ⟨fun s => ⟨sanitizeSeed_toNat s, ?_, ?_, ?_⟩, by decide, by decide⟩
  · rw [sanitizeSeed_eq_abs, BitVec.abs_eq]
  · exact (sanitizeSeed_eq_iff _ _).mpr (natAbs_toInt_neg s)
  · rw [sanitizeSeed_toNat_eq_natAbs]
    exact natAbs_toInt_le s

/-! ### Each step of the hash is invertible (R105) -/

/-- The XOR of two words with one image is its own shift to the right, which only zero is. -/
theorem xorShift_injective {n : Nat} (hn : 0 < n) : Function.Injective (xorShift n) := by
  intro a b h
  have hshift : (a ^^^ b) >>> n = a ^^^ b := by
    rw [BitVec.ushiftRight_xor_distrib, ← BitVec.xor_eq_zero_iff]
    calc a >>> n ^^^ b >>> n ^^^ (a ^^^ b) = xorShift n a ^^^ xorShift n b := by
          unfold xorShift
          ac_rfl
      _ = 0#32 := BitVec.xor_eq_zero_iff.mpr h
  have hdiv : (a ^^^ b).toNat / 2 ^ n = (a ^^^ b).toNat := by
    rw [← Nat.shiftRight_eq_div_pow, ← BitVec.toNat_ushiftRight, hshift]
  have hzero : (a ^^^ b).toNat = 0 := by
    by_contra hne
    have hsmaller := Nat.div_lt_self (Nat.pos_of_ne_zero hne) (Nat.one_lt_two_pow hn.ne')
    omega
  exact BitVec.xor_eq_zero_iff.mp (BitVec.eq_of_toNat_eq hzero)

/-- R105: the three odd factors of the hash are invertible modulo `2^32`; each proof names the inverse. -/
theorem isUnit_mix_factors : IsUnit mixC1 ∧ IsUnit mixC3 ∧ IsUnit mixC5 :=
  ⟨.of_mul_eq_one 0xA30AE5BF#32 (by decide), .of_mul_eq_one 0xCF3C2263#32 (by decide),
    .of_mul_eq_one 0x28E0C75D#32 (by decide)⟩

/-- Steps 5 to 13, the last one outermost. -/
theorem mixScramble_injective : Function.Injective mixScramble := by
  obtain ⟨-, hC3, hC5⟩ := isUnit_mix_factors
  exact (xorShift_injective (n := 17) (by decide)).comp <| hC5.mul_left_injective.comp <|
    (xorShift_injective (n := 15) (by decide)).comp <| (add_left_injective mixC4).comp <|
    (xorShift_injective (n := 13) (by decide)).comp <| hC3.mul_left_injective.comp <|
    (xorShift_injective (n := 11) (by decide)).comp <| (add_left_injective mixC2).comp <|
    xorShift_injective (n := 9) (by decide)

theorem mixEnter_injective_position (u : Word) : Function.Injective fun p => mixEnter p u := by
  obtain ⟨hC1, -, -⟩ := isUnit_mix_factors
  exact (add_left_injective u).comp hC1.mul_left_injective

theorem mixEnter_injective_seed (p : Word) : Function.Injective (mixEnter p) :=
  add_right_injective (p * mixC1)

/-- Settles O24: an injective map of the 32-bit words into themselves is a bijection. -/
theorem mixIsABijectionOfThePosition : Obligations.MixIsABijectionOfThePosition := by
  intro s
  exact Finite.injective_iff_bijective.mp (mixScramble_injective.comp (mixEnter_injective_position (sanitizeSeed s)))

/-- Settles O25: the hash is injective in the sanitized seed, which is the absolute value. -/
theorem mixSeparatesSeedsByAbsoluteValue : Obligations.MixSeparatesSeedsByAbsoluteValue := by
  intro p
  have hinj : Function.Injective fun u => mixScramble (mixEnter p u) :=
    mixScramble_injective.comp (mixEnter_injective_seed p)
  refine ⟨Finite.injective_iff_bijective.mp hinj, fun s s' => ?_⟩
  rw [← sanitizeSeed_eq_iff]
  exact hinj.eq_iff

/-! ### The hash on natural numbers (R102, R106) -/

theorem xorShift_toNat_eq_xorDiv (n : Nat) (b : Word) : (xorShift n b).toNat = xorDiv (2 ^ n) b.toNat :=
  xorShift_toNat n b

/-- Each step of R102 on words is the same step on their numbers. -/
theorem mix_toNat (p s : Word) : (mix p s).toNat = mixNat p.toNat (sanitizeSeed s).toNat := by
  simp (disch := decide) only [mix, mixEnter, mixScramble, mixC1, mixC2, mixC3, mixC4, mixC5, mixNat, mul_const_toNat,
    add_const_toNat, BitVec.toNat_add _ (sanitizeSeed s), xorShift_toNat_eq_xorDiv, Nat.reducePow]

/-- The hash at the word of an integer position is the noise value there. -/
theorem mix_u32_toNat (pos : Int) (seed : Word) : (mix (u32 pos) seed).toNat = noiseNat pos seed := by
  rw [mix_toNat, u32_toNat, sanitizeSeed_toNat, noiseNat]

/-- A raw noise value in 64 bits is the number of its word. -/
theorem rawData_eq_ofNat (n : Word) : rawData n = BitVec.ofNat 64 n.toNat :=
  (BitVec.ofNat_toNat 64 n).symm

/-- Settles O13: a word is the word of its own number, which is the position. -/
theorem noiseRaw1dHashesTheIndex : Obligations.NoiseRaw1dHashesTheIndex := by
  intro r s hcmd
  have hword := mix_u32_toNat (uint r.x) r.seed
  rw [u32_uint, uint] at hword
  refine ⟨decode_of_fields 0x00#8 .noise .raw .binary64 .d1 hcmd rfl rfl rfl rfl rfl, ?_⟩
  rw [← hword, ← rawData_eq_ofNat]
  rfl

end Sys2Proof.Machine
end

section
/-! Proofs of the statements about the dimension folder (R130 to R141): the fold as exact integers, the same fold on 32-bit
words, and the laws of R141, which rest on the first prime being invertible modulo `2^32`. -/

namespace Sys2Proof.Machine

open Sys2Proof.Reference

/-! ### The term (R130) -/

/-- A term is a 32-bit word, read as unsigned. -/
theorem foldTerm_bounds (p : Int) (c : Word) : 0 ≤ foldTerm p c ∧ foldTerm p c ≤ 4294967295 := by
  rw [foldTerm_eq_emod]
  omega

/-- Either reading of the coordinate gives the term, as the two readings are congruent modulo `2^32`. -/
theorem foldTerm_eq_mul_toNat_emod (p : Int) (c : Word) : foldTerm p c = p * (c.toNat : Int) % 4294967296 := by
  have hcongr : c.toInt ≡ (c.toNat : Int) [ZMOD 4294967296] := by
    rw [BitVec.toInt_eq_toNat_bmod]
    exact Int.bmod_emod
  rw [foldTerm_eq_emod]
  exact hcongr.mul_left p

@[simp] theorem foldTerm_zero (p : Int) : foldTerm p 0#32 = 0 := by
  simp [foldTerm_eq_emod]

/-- Every odd multiple of `-2^31` is `2^31` modulo `2^32`. -/
theorem foldTerm_intMin {p : Int} (hp : Odd p) : foldTerm p 0x80000000#32 = 0x80000000 := by
  obtain ⟨k, rfl⟩ := hp
  have hcoord : (0x80000000#32).toInt = -2147483648 := by decide
  rw [foldTerm_eq_emod, hcoord]
  omega

/-- Settles O26: the corner at `2^31` holds as each of the three primes is odd. -/
theorem foldTermIsTheReducedProduct : Obligations.FoldTermIsTheReducedProduct := by
  refine ⟨fun P hP c => ?_, by decide⟩
  have hodd : Odd P := (by decide : ∀ P ∈ [(198491317 : Int), 6542989, 357239], Odd P) P hP
  obtain ⟨hlow, hhigh⟩ := foldTerm_bounds P c
  exact ⟨foldTerm_eq_emod P c, hlow, hhigh, foldTerm_eq_mul_toNat_emod P c, foldTerm_zero P, foldTerm_intMin hodd⟩

/-! ### The ranges (R132) -/

theorem sint32_bounds (w : Word) : -2147483648 ≤ sint32 w ∧ sint32 w ≤ 2147483647 :=
  ⟨w.le_toInt, Int.le_of_lt_add_one w.toInt_lt⟩

/-- Settles O27: the ranges of the terms add up. Each upper bound is reached where every term is `2^32 - 1`: each coordinate
but `x` is the negated inverse of its prime modulo `2^32`. -/
theorem foldRangesAreReached : Obligations.FoldRangesAreReached := by
  refine ⟨fun x y z t => ?_, ⟨0x80000000#32, by decide⟩, ⟨0x7FFFFFFF#32, by decide⟩,
    ⟨0x80000000#32, 0#32, by decide⟩, ⟨0x7FFFFFFF#32, 0x4598AE63#32, by decide⟩,
    ⟨0x80000000#32, 0#32, 0#32, by decide⟩, ⟨0x7FFFFFFF#32, 0x4598AE63#32, 0xEEF123BB#32, by decide⟩,
    ⟨0x80000000#32, 0#32, 0#32, 0#32, by decide⟩,
    ⟨0x7FFFFFFF#32, 0x4598AE63#32, 0xEEF123BB#32, 0x4D5AA9B9#32, by decide⟩⟩
  have hx := sint32_bounds x
  have hy := foldTerm_bounds foldP1 y
  have hz := foldTerm_bounds foldP2 z
  have ht := foldTerm_bounds foldP3 t
  have hfold4 : -2147483648 ≤ fold4 x y z t ∧ fold4 x y z t ≤ 15032385532 := by
    unfold fold4
    omega
  refine ⟨hx, ?_, ?_, hfold4, BitVec.toInt_ofInt_eq_self (by decide) (by omega) (by omega)⟩
  · unfold fold2
    omega
  · unfold fold3
    omega

/-! ### The commands compute the exact fold (R131, R134 to R140) -/

theorem fold2_eq_foldInt2 (x y : Word) : fold2 x y = foldInt2 x y := by
  rw [fold2, foldTerm_eq_emod]
  rfl

theorem fold3_eq_foldInt3 (x y z : Word) : fold3 x y z = foldInt3 x y z := by
  rw [foldInt3, ← fold2_eq_foldInt2, fold3, foldTerm_eq_emod foldP2]
  rfl

theorem fold4_eq_foldInt4 (x y z t : Word) : fold4 x y z t = foldInt4 x y z t := by
  rw [foldInt4, ← fold3_eq_foldInt3, fold4, foldTerm_eq_emod foldP3]
  rfl

/-- Settles O15: the exact sums are the fold values, and the answer of `fold.1d` is the sign extension. -/
theorem foldCommandsAnswerTheExactSum : Obligations.FoldCommandsAnswerTheExactSum := by
  intro r s
  rw [← fold2_eq_foldInt2, ← fold3_eq_foldInt3, ← fold4_eq_foldInt4]
  exact ⟨fun h => ⟨decode_of_fields 0x10#8 .fold .raw .binary64 .d1 h rfl rfl rfl rfl rfl, rfl⟩,
    fun h => ⟨decode_of_fields 0x11#8 .fold .raw .binary64 .d2 h rfl rfl rfl rfl rfl, rfl⟩,
    fun h => ⟨decode_of_fields 0x12#8 .fold .raw .binary64 .d3 h rfl rfl rfl rfl rfl, rfl⟩,
    fun h => ⟨decode_of_fields 0x13#8 .fold .raw .binary64 .d4 h rfl rfl rfl rfl rfl, rfl⟩⟩

/-- What a raw NOISE command answers whose position is the fold value `pos`. -/
theorem answer_rawData_mix_u32 (pos : Int) (seed : Word) (s : State) :
    answer (rawData (mix (u32 pos) seed)) s = .next (answered s (BitVec.ofNat 64 (noiseNat pos seed))) := by
  rw [rawData_eq_ofNat, mix_u32_toNat]
  rfl

/-- Settles O14: each command hashes the word of its fold value, which is the exact sum. -/
theorem noiseRawHashesTheFold : Obligations.NoiseRawHashesTheFold := by
  intro r s
  rw [← fold2_eq_foldInt2, ← fold3_eq_foldInt3, ← fold4_eq_foldInt4]
  exact ⟨fun h => ⟨decode_of_fields 0x01#8 .noise .raw .binary64 .d2 h rfl rfl rfl rfl rfl,
      answer_rawData_mix_u32 (fold2 r.x r.y) r.seed s⟩,
    fun h => ⟨decode_of_fields 0x02#8 .noise .raw .binary64 .d3 h rfl rfl rfl rfl rfl,
      answer_rawData_mix_u32 (fold3 r.x r.y r.z) r.seed s⟩,
    fun h => ⟨decode_of_fields 0x03#8 .noise .raw .binary64 .d4 h rfl rfl rfl rfl rfl,
      answer_rawData_mix_u32 (fold4 r.x r.y r.z r.t) r.seed s⟩⟩

/-! ### The fold on 32-bit words (R133) -/

/-- Reduction modulo `2^32` is the library's map of the integers onto the words. -/
theorem u32_eq_ofInt (n : Int) : u32 n = BitVec.ofInt 32 n := by
  apply BitVec.eq_of_toNat_eq
  rw [u32_toNat, BitVec.toNat_ofInt]
  rfl

theorem u32_add (m n : Int) : u32 (m + n) = u32 m + u32 n := by
  simp only [u32_eq_ofInt, BitVec.ofInt_add]

theorem u32_mul (m n : Int) : u32 (m * n) = u32 m * u32 n := by
  simp only [u32_eq_ofInt, BitVec.ofInt_mul]

/-- A term on words is one product. -/
theorem u32_foldTerm (p : Int) (c : Word) : u32 (foldTerm p c) = u32 p * c := by
  rw [foldTerm, u32_uint, u32_mul, u32_sint32]

theorem u32_fold2 (x y : Word) : u32 (fold2 x y) = x + 198491317#32 * y := by
  rw [fold2, u32_add, u32_sint32, u32_foldTerm]
  rfl

theorem u32_fold3 (x y z : Word) : u32 (fold3 x y z) = x + 198491317#32 * y + 6542989#32 * z := by
  rw [← u32_fold2, fold3, u32_add, u32_foldTerm foldP2]
  rfl

theorem u32_fold4 (x y z t : Word) :
    u32 (fold4 x y z t) = x + 198491317#32 * y + 6542989#32 * z + 357239#32 * t := by
  rw [← u32_fold3, fold4, u32_add, u32_foldTerm foldP3]
  rfl

/-- Settles O28: reduction modulo `2^32` commutes with the sum of the fold and with the first product of the hash. -/
theorem foldMayWrapOnItsWayToTheMixer : Obligations.FoldMayWrapOnItsWayToTheMixer := by
  intro x y z t seed
  refine ⟨by rw [noise2, u32_fold2], by rw [noise3, u32_fold3], by rw [noise4, u32_fold4], ?_⟩
  rw [← u32_toNat, u32_mul]
  rfl

/-! ### A zero coordinate (R141 (a)) -/

theorem fold2_zero (x : Word) : fold2 x 0#32 = fold1 x := by
  simp [fold2, fold1]

theorem fold3_zero (x y : Word) : fold3 x y 0#32 = fold2 x y := by
  simp [fold3, fold2]

theorem fold4_zero (x y z : Word) : fold4 x y z 0#32 = fold3 x y z := by
  simp [fold4, fold3]

theorem noise2_zero (x seed : Word) : noise2 x 0#32 seed = mix x seed := by
  rw [noise2, fold2_zero, fold1, u32_sint32]

theorem noise3_zero (x y seed : Word) : noise3 x y 0#32 seed = noise2 x y seed := by
  rw [noise3, fold3_zero, noise2]

theorem noise4_zero (x y z seed : Word) : noise4 x y z 0#32 seed = noise3 x y z seed := by
  rw [noise4, fold4_zero, noise3]

/-- Settles O29: a FOLD command answers a function of its fold value, and a NOISE command, in each of its three forms, a
function of its noise value. -/
theorem zeroCoordinateAddsNothing : Obligations.ZeroCoordinateAddsNothing := by
  intro f x y z seed s
  have h2 := noise2_zero x seed
  have h3 := noise3_zero x y seed
  have h4 := noise4_zero x y z seed
  have fold {a b : Int} (h : a = b) : answer (foldData a) s = answer (foldData b) s := by rw [h]
  have raw {m n : Word} (h : m = n) : answer (rawData m) s = answer (rawData n) s := by rw [h]
  have zeroOne {m n : Word} (h : m = n) : answerZeroOne f m s = answerZeroOne f n s := by rw [h]
  have negOne {m n : Word} (h : m = n) : answerNegOne f m s = answerNegOne f n s := by rw [h]
  exact ⟨⟨fold2_zero x, fold3_zero x y, fold4_zero x y z⟩,
    ⟨fold (fold2_zero x), fold (fold3_zero x y), fold (fold4_zero x y z)⟩,
    ⟨raw h2, raw h3, raw h4⟩, ⟨zeroOne h2, zeroOne h3, zeroOne h4⟩, ⟨negOne h2, negOne h3, negOne h4⟩⟩

/-! ### Distinct coordinates (R141 (b), (c)) -/

/-- `P1` is odd, hence invertible modulo `2^32`; the proof names the inverse. -/
theorem isUnit_foldP1_word : IsUnit 198491317#32 :=
  .of_mul_eq_one 0xBA67519D#32 (by decide)

/-- The position is an injective function of `y`, and the hash one of the position. -/
theorem noise2_bijective (x seed : Word) : Function.Bijective fun y => noise2 x y seed := by
  have hposition : Function.Injective fun y : Word => x + 198491317#32 * y :=
    (add_right_injective x).comp isUnit_foldP1_word.mul_right_injective
  have hnoise : (fun y => noise2 x y seed) = (fun p => mix p seed) ∘ fun y => x + 198491317#32 * y :=
    funext fun y => congrArg (fun p => mix p seed) (u32_fold2 x y)
  rw [hnoise]
  exact Finite.injective_iff_bijective.mp ((mixIsABijectionOfThePosition seed).injective.comp hposition)

theorem rawData_injective : Function.Injective rawData := by
  intro a b h
  have hlow (n : Word) : (rawData n).setWidth 32 = n := by simp [rawData]
  rw [← hlow a, h, hlow b]

/-- In one state, different data are different answers. -/
theorem answer_injective (s : State) : Function.Injective fun d => answer d s := by
  intro d d' h
  simpa [answer, State.respond] using h

/-- Settles O30: the answer separates the noise values, which are a bijection of `y`. -/
theorem noise2dIsABijectionOfY : Obligations.Noise2dIsABijectionOfY := by
  intro x seed s
  obtain ⟨hinj, hsurj⟩ := noise2_bijective x seed
  refine ⟨fun y y' h => hinj (rawData_injective (answer_injective s h)), fun n => ?_⟩
  obtain ⟨y, hy⟩ := hsurj n
  exact ⟨y, congrArg (fun n => answer (rawData n) s) hy⟩

/-- Settles O31: in each pair the two fold values, evaluated, leave the same position modulo `2^32`. -/
theorem distinctCoordinatesCanCollide : Obligations.DistinctCoordinatesCanCollide :=
  ⟨congrArg (fun p => mix p 0xFFFFFFFF#32) (by decide), congrArg (fun p => mix p 9#32) (by decide)⟩

end Sys2Proof.Machine
end

section
/-! Proofs of the statements about the float commands (R164 to R173): each answers the conversion of its noise value, and the
neg-one-to-one forms alone read `NEG_MAP`. -/

namespace Sys2Proof.Machine

open Sys2Proof.Reference

/-! ### Decoding a float form (R71, R73) -/

/-- The five fields of a `cmd` (R71), from `RSV` down to `DIM`. -/
def cmdFields (cmd : BitVec 8) : Bool × CmdClass × Form × Prec × Dim :=
  (cmdRsv cmd, cmdClass cmd, cmdForm cmd, cmdPrec cmd, cmdDim cmd)

theorem decode_of_cmdFields {r : Request} {c : CmdClass} {form : Form} {f : Prec} {d : Dim}
    (h : cmdFields r.cmd = (false, c, form, f, d)) : decode r = decodeFields r c form f d := by
  simp only [cmdFields, Prod.mk.injEq] at h
  obtain ⟨hrsv, hclass, hform, hprec, hdim⟩ := h
  exact decode_of_fields r.cmd c form f d rfl hrsv hclass hform hprec hdim

/-- A float form decodes alike in both formats, up to the format. -/
theorem decode_of_byPrec {r : Request} {f : Prec} {double single : BitVec 8} (c : CmdClass) (form : Form) (d : Dim)
    (h : r.cmd = byPrec double single f) (hdouble : cmdFields double = (false, c, form, .binary64, d))
    (hsingle : cmdFields single = (false, c, form, .binary32, d)) : decode r = decodeFields r c form f d := by
  apply decode_of_cmdFields
  rw [h]
  cases f with
  | binary64 => exact hdouble
  | binary32 => exact hsingle

/-! ### The commands -/

/-- The independent noise value is the hash at the word of the position. -/
theorem noiseWord_eq_mix (pos : Int) (seed : Word) : noiseWord pos seed = mix (u32 pos) seed := by
  rw [noiseWord, ← mix_u32_toNat, BitVec.ofNat_toNat, BitVec.setWidth_eq]

theorem noiseWord_index (x seed : Word) : noiseWord x.toNat seed = mix x seed := by
  rw [noiseWord_eq_mix, ← uint, u32_uint]

theorem noiseWord_foldInt2 (x y seed : Word) : noiseWord (foldInt2 x y) seed = noise2 x y seed := by
  rw [noiseWord_eq_mix, ← fold2_eq_foldInt2, noise2]

theorem noiseWord_foldInt3 (x y z seed : Word) : noiseWord (foldInt3 x y z) seed = noise3 x y z seed := by
  rw [noiseWord_eq_mix, ← fold3_eq_foldInt3, noise3]

theorem noiseWord_foldInt4 (x y z t seed : Word) : noiseWord (foldInt4 x y z t) seed = noise4 x y z t seed := by
  rw [noiseWord_eq_mix, ← fold4_eq_foldInt4, noise4]

/-- Settles O17: the independent noise values are those the commands convert. -/
theorem zeroOneNoiseConvertsTheNoise : Obligations.ZeroOneNoiseConvertsTheNoise := by
  intro f r s
  rw [noiseWord_index, noiseWord_foldInt2, noiseWord_foldInt3, noiseWord_foldInt4]
  exact ⟨fun h => ⟨decode_of_byPrec .noise .zeroOne .d1 h rfl rfl, rfl⟩,
    fun h => ⟨decode_of_byPrec .noise .zeroOne .d2 h rfl rfl, rfl⟩,
    fun h => ⟨decode_of_byPrec .noise .zeroOne .d3 h rfl rfl, rfl⟩,
    fun h => ⟨decode_of_byPrec .noise .zeroOne .d4 h rfl rfl, rfl⟩⟩

/-- Settles O18: the independent noise values are those the commands convert. -/
theorem negOneNoiseConvertsTheNoise : Obligations.NegOneNoiseConvertsTheNoise := by
  intro f r s
  rw [noiseWord_index, noiseWord_foldInt2, noiseWord_foldInt3, noiseWord_foldInt4]
  exact ⟨fun h => ⟨decode_of_byPrec .noise .negOne .d1 h rfl rfl, rfl⟩,
    fun h => ⟨decode_of_byPrec .noise .negOne .d2 h rfl rfl, rfl⟩,
    fun h => ⟨decode_of_byPrec .noise .negOne .d3 h rfl rfl, rfl⟩,
    fun h => ⟨decode_of_byPrec .noise .negOne .d4 h rfl rfl, rfl⟩⟩

/-- Settles O16: the operand is `x` itself. -/
theorem mapCommandsConvertTheOperand : Obligations.MapCommandsConvertTheOperand := by
  intro f r s
  exact ⟨fun h => ⟨decode_of_byPrec .map .zeroOne .d1 h rfl rfl, rfl⟩,
    fun h => ⟨decode_of_byPrec .map .negOne .d1 h rfl rfl, rfl⟩⟩

/-- Settles O22: outside the neg-one-to-one forms, the data of a command is an expression in its operands. -/
theorem negMapOnlyTouchesTheNegOneForms : Obligations.NegMapOnlyTouchesTheNegOneForms := by
  intro i hi
  cases i with
  | noiseNegOne1d | noiseNegOne2d | noiseNegOne3d | noiseNegOne4d | mapNegOne => cases hi
  | noiseRaw1d | noiseRaw2d | noiseRaw3d | noiseRaw4d | noiseZeroOne1d | noiseZeroOne2d | noiseZeroOne3d
  | noiseZeroOne4d | fold1d | fold2d | fold3d | fold4d | mapZeroOne => exact ⟨_, fun _ => rfl⟩

end Sys2Proof.Machine
end

section
/-! Rounding to nearest (R10). A quotient of R160 or R161 is no tie, as its divisor is odd and it is scaled up by a power of
two to be rounded (R162); so its rounded value is strictly nearer to it than any other value of the format. -/

namespace Sys2Proof.Machine

open Sys2Proof.Reference

/-! ### No tie arises (R162) -/

/-- A quotient by an odd divisor, scaled up, is not halfway between two integers: twice it is not an odd integer. -/
theorem scaledSig_spec_of_odd (a : Nat) {b : Nat} (hb : Odd b) (k : Nat) :
    |(scaledSig a b k : ℚ) - (a : ℚ) / b * 2 ^ k| < 1 / 2 := by
  have hb0 : (b : ℚ) ≠ 0 := by exact_mod_cast hb.pos.ne'
  have hle := scaledSig_spec a hb.pos.ne' k
  rw [zpow_natCast] at hle
  refine lt_of_le_of_ne hle fun htie => ?_
  set m := scaledSig a b k
  have hodd (j : Int) (hj : Odd j) : (a : ℚ) / b * 2 ^ k ≠ j / 2 := by
    intro h
    have hcross : (a : Int) * 2 ^ k * 2 = j * b := by
      field_simp at h
      exact_mod_cast (by linarith : (a : ℚ) * 2 ^ k * 2 = j * b)
    exact Int.not_even_iff_odd.mpr (hj.mul (by exact_mod_cast hb)) (hcross ▸ even_two.mul_left _)
  rcases eq_or_eq_neg_of_abs_eq htie with h | h
  · exact hodd (2 * m - 1) ⟨m - 1, by ring⟩ (by push_cast; linarith)
  · exact hodd (2 * m + 1) ⟨m, rfl⟩ (by push_cast; linarith)

/-! ### The values of a format near a number (R10) -/

/-- The distance of neighbouring values in the binade of `2^e`. -/
def ulp (f : Prec) (e : Int) : ℚ := 2 ^ (e - ((floatSig f : Int) - 1))

theorem ulp_pos (f : Prec) (e : Int) : 0 < ulp f e := by
  unfold ulp
  positivity

/-- A binade starts on its own grid. -/
theorem pow_mul_ulp (f : Prec) (e : Int) : (2 : ℚ) ^ (floatSig f - 1) * ulp f e = 2 ^ e := by
  have hsig : 1 ≤ floatSig f := by cases f <;> decide
  rw [ulp, ← zpow_natCast, ← zpow_add₀ two_ne_zero]
  congr 1
  omega

/-- A value is an integer significand of at most `p` bits, scaled. -/
theorem floatValue_eq_scaled (f : Prec) (c : BitVec (floatWidth f)) :
    ∃ s E : Int, |(s : ℚ)| < 2 ^ floatSig f ∧ floatValue f c = s * ulp f E := by
  have hfrac : floatFrac f c < 2 ^ (floatSig f - 1) := Nat.mod_lt _ (by positivity)
  have hpow : 2 ^ floatSig f = 2 * 2 ^ (floatSig f - 1) := by cases f <;> rfl
  suffices h : ∃ (m : Nat) (E : Int), m < 2 ^ floatSig f ∧
      floatValue f c = (if floatSign f c then -1 else 1) * (m * ulp f E) by
    obtain ⟨m, E, hm, hc⟩ := h
    have hm' : (m : ℚ) < 2 ^ floatSig f := by exact_mod_cast hm
    rw [hc]
    cases floatSign f c with
    | false => exact ⟨m, E, by simpa using hm', by simp⟩
    | true => exact ⟨-m, E, by simpa using hm', by simp⟩
  by_cases hb : floatBiased f c = 0
  · refine ⟨floatFrac f c, 1 - floatBias f, by omega, ?_⟩
    rw [floatValue, ulp, if_pos hb]
    congr 3
    ring
  · refine ⟨2 ^ (floatSig f - 1) + floatFrac f c, floatBiased f c - floatBias f, by omega, ?_⟩
    rw [floatValue, ulp, if_neg hb]

/-- A value that is not on the grid of the binade of `2^e` lies below that binade. -/
theorem floatValue_on_grid_or_lt (f : Prec) (e : Int) (c : BitVec (floatWidth f)) :
    (∃ z : Int, floatValue f c = z * ulp f e) ∨ |floatValue f c| < 2 ^ e := by
  obtain ⟨s, E, hs, hc⟩ := floatValue_eq_scaled f c
  have two : (2 : ℚ) ≠ 0 := two_ne_zero
  rw [hc]
  rcases le_or_gt e E with hE | hE
  · obtain ⟨j, rfl⟩ := Int.le.dest hE
    refine .inl ⟨s * 2 ^ j, ?_⟩
    push_cast
    rw [ulp, ulp, mul_assoc, ← zpow_natCast, ← zpow_add₀ two]
    congr 2
    ring
  · right
    calc |(s : ℚ) * ulp f E| = |(s : ℚ)| * ulp f E := by rw [abs_mul, abs_of_pos (ulp_pos f E)]
      _ < 2 ^ floatSig f * ulp f E := mul_lt_mul_of_pos_right hs (ulp_pos f E)
      _ = 2 ^ (E + 1) := by rw [ulp, ← zpow_natCast, ← zpow_add₀ two]; congr 1; ring
      _ ≤ 2 ^ e := zpow_le_zpow_right₀ one_le_two hE

@[simp] theorem floatValue_zero (f : Prec) : floatValue f 0 = 0 := by
  have hfields : floatBiased f 0 = 0 ∧ floatFrac f 0 = 0 := by cases f <;> decide
  rw [floatValue, if_pos hfields.1, hfields.2, Nat.cast_zero, zero_mul, mul_zero]

/-- The value of a normal pattern, by its fields. -/
theorem floatValue_packFloat (f : Prec) (s : Bool) {biased frac : Nat} (hzero : biased ≠ 0)
    (hbiased : biased < 2 ^ (floatWidth f - floatSig f)) (hfrac : frac < 2 ^ (floatSig f - 1)) :
    floatValue f (packFloat f s biased frac) =
      (if s then -1 else 1) * ((2 ^ (floatSig f - 1) + frac : Nat) * ulp f (biased - floatBias f)) := by
  obtain ⟨hs, hb, hf⟩ := packFloat_fields f s hbiased hfrac
  rw [floatValue, hs, hb, hf, if_neg hzero, ulp]

/-- The pattern of 1 or -1: its exponent field is the bias. -/
def onePattern (f : Prec) (s : Bool) : BitVec (floatWidth f) := packFloat f s (floatBias f).toNat 0

@[simp] theorem floatValue_onePattern (f : Prec) (s : Bool) : floatValue f (onePattern f s) = if s then -1 else 1 := by
  have hbias : ((floatBias f).toNat : Int) - floatBias f = 0 := by cases f <;> rfl
  have hone := pow_mul_ulp f 0
  rw [onePattern, floatValue_packFloat f s (by cases f <;> decide) (by cases f <;> decide) (by positivity), hbias]
  push_cast
  rw [add_zero, hone, zpow_zero, mul_one]

/-! ### The nearest point of a grid -/

/-- The multiple of `u` within half a `u` of `q` is nearer to `q` than every other multiple. -/
theorem dist_lt_of_grid {u q : ℚ} {m z : Int} (hm : |m * u - q| < u / 2) (hz : (z : ℚ) * u ≠ m * u) :
    |m * u - q| < |z * u - q| := by
  have hu : 0 < u := by linarith [abs_nonneg (m * u - q)]
  have hzm : (1 : ℚ) ≤ |(z : ℚ) - m| := by
    have hne : z - m ≠ 0 := sub_ne_zero.mpr fun h => hz (by rw [h])
    exact_mod_cast Int.one_le_abs hne
  have hgap : u ≤ |(z : ℚ) * u - m * u| := by
    rw [← sub_mul, abs_mul, abs_of_pos hu]
    exact le_mul_of_one_le_left hu.le hzm
  linarith [abs_sub_le ((z : ℚ) * u) q (m * u), abs_sub_comm q (m * u)]

/-- What is on the grid of `q`'s binade or below that binade is farther from `q` than the nearest point of the grid, as the
binade's lower end, here `k * u`, is itself on the grid. -/
theorem dist_lt_of_grid_or_lt {u q x : ℚ} {m k : Int} (hm : |m * u - q| < u / 2) (hk : k * u ≤ q)
    (hx : (∃ z : Int, x = z * u) ∨ x < k * u) (hne : x ≠ m * u) : |m * u - q| < |x - q| := by
  rcases hx with ⟨z, rfl⟩ | hlt
  · exact dist_lt_of_grid hm hne
  · have hlow : |m * u - q| ≤ |k * u - q| := by
      by_cases h : (k : ℚ) * u = m * u
      · rw [h]
      · exact (dist_lt_of_grid hm h).le
    rw [abs_of_nonpos (by linarith : k * u - q ≤ 0)] at hlow
    rw [abs_of_neg (by linarith : x - q < 0)]
    linarith

/-- Rounding to nearest is monotone. -/
theorem floatValue_le_of_isNearest {f : Prec} {q q' : ℚ} {b b' : BitVec (floatWidth f)} (h : IsNearest f q b)
    (h' : IsNearest f q' b') (hq : q ≤ q') : floatValue f b ≤ floatValue f b' := by
  by_contra! hlt
  have hb := h.2 b' h'.1 hlt.ne
  have hb' := h'.2 b h.1 hlt.ne'
  -- `q` lies above the midpoint of the two values, and `q'` below it.
  have hmid : floatValue f b + floatValue f b' < 2 * q := by nlinarith [sq_lt_sq.mpr hb]
  have hmid' : 2 * q' < floatValue f b + floatValue f b' := by nlinarith [sq_lt_sq.mpr hb']
  linarith

/-! ### The rounded pattern of a quotient (R10, R162) -/

/-- The rounded significand of a quotient, by its magnitude. -/
def roundedSig (f : Prec) (num : Int) (den : Nat) : Nat :=
  scaledSig num.natAbs den ((floatSig f : Int) - 1 - quotExp num.natAbs den)

/-- What the quotients of R160 and R161 have in common: an odd divisor of 32 bits, and a magnitude below 4. -/
structure IsMapQuotient (num : Int) (den : Nat) : Prop where
  odd    : Odd den
  den_lt : den < 2 ^ 32
  num_lt : num.natAbs < 4 * den

section
variable {num : Int} {den : Nat} (h : IsMapQuotient num den)
include h

theorem IsMapQuotient.quotExp_bounds (hnum : num ≠ 0) :
    -32 ≤ quotExp num.natAbs den ∧ quotExp num.natAbs den ≤ 1 := by
  have hden : (0 : ℚ) < den := by exact_mod_cast h.odd.pos
  obtain ⟨hlow, hhigh⟩ := quotExp_spec (Int.natAbs_ne_zero.mpr hnum) h.odd.pos.ne'
  have hsmall : (2 : ℚ) ^ (-32 : Int) < (num.natAbs : ℚ) / den := by
    have hcross : (den : ℚ) < num.natAbs * 2 ^ 32 := by exact_mod_cast (by have := h.den_lt; omega)
    rw [lt_div_iff₀ hden, zpow_neg, inv_mul_lt_iff₀ (by positivity), mul_comm]
    exact hcross
  have hlarge : (num.natAbs : ℚ) / den < 2 ^ (2 : Int) := by
    rw [div_lt_iff₀ hden]
    exact_mod_cast h.num_lt
  have hlow' := (zpow_lt_zpow_iff_right₀ one_lt_two).mp (hlow.trans_lt hlarge)
  have hhigh' := (zpow_lt_zpow_iff_right₀ one_lt_two).mp (hsmall.trans hhigh)
  omega

/-- The rounded significand, scaled back, is within half a unit in the last place of the magnitude. -/
theorem IsMapQuotient.roundedSig_near (f : Prec) (hnum : num ≠ 0) :
    |(roundedSig f num den : ℚ) * ulp f (quotExp num.natAbs den) - num.natAbs / den|
      < ulp f (quotExp num.natAbs den) / 2 := by
  obtain ⟨-, hhigh⟩ := h.quotExp_bounds hnum
  have hsig : 24 ≤ floatSig f := by cases f <;> decide
  obtain ⟨k, hk⟩ : ∃ k : Nat, (floatSig f : Int) - 1 - quotExp num.natAbs den = k :=
    Int.eq_ofNat_of_zero_le (by omega)
  have hulp : ulp f (quotExp num.natAbs den) = (2 ^ k)⁻¹ := by rw [ulp, ← neg_sub, hk, zpow_neg, zpow_natCast]
  have hpos : (0 : ℚ) < (2 ^ k)⁻¹ := by positivity
  have hscaled := mul_lt_mul_of_pos_right (scaledSig_spec_of_odd num.natAbs h.odd k) hpos
  nth_rw 1 [← abs_of_pos hpos] at hscaled
  rw [← abs_mul, sub_mul, mul_inv_cancel_right₀ (by positivity)] at hscaled
  rw [roundedSig, hk, hulp]
  linarith

/-- The pattern of a quotient other than 0: normal, and the rounded significand with the quotient's sign. -/
theorem IsMapQuotient.encRne_normal (f : Prec) (hnum : num ≠ 0) :
    FloatNormal f (encRne f num den) ∧ floatValue f (encRne f num den) =
      (if num < 0 then -1 else 1) * (roundedSig f num den * ulp f (quotExp num.natAbs den)) := by
  obtain ⟨hlow, hhigh⟩ := h.quotExp_bounds hnum
  have hbias : 127 ≤ floatBias f ∧ floatBias f + 3 < 2 ^ (floatWidth f - floatSig f) := by cases f <;> decide
  obtain ⟨hsig, hsig'⟩ := scaledSig_bounds (Int.natAbs_ne_zero.mpr hnum) h.odd.pos.ne' (floatSig f)
    (by cases f <;> decide)
  obtain ⟨hnormal, -, hvalue⟩ := floatValue_packNormal f (decide (num < 0)) (e := quotExp num.natAbs den) hsig hsig'
    (by omega) (by omega)
  rw [encRne, if_neg hnum, roundedSig, ulp]
  exact ⟨hnormal, by simpa only [decide_eq_true_eq] using hvalue⟩

/-- The rounded magnitude is nearer to the magnitude than any other value of the format. -/
theorem IsMapQuotient.roundedSig_dist_lt (f : Prec) (hnum : num ≠ 0) {x : ℚ}
    (hx : (∃ z : Int, x = z * ulp f (quotExp num.natAbs den)) ∨ |x| < 2 ^ quotExp num.natAbs den)
    (hne : x ≠ roundedSig f num den * ulp f (quotExp num.natAbs den)) :
    |roundedSig f num den * ulp f (quotExp num.natAbs den) - num.natAbs / den| < |x - num.natAbs / den| := by
  have hstart : ((2 ^ (floatSig f - 1) : Int) : ℚ) * ulp f (quotExp num.natAbs den) = 2 ^ quotExp num.natAbs den := by
    exact_mod_cast pow_mul_ulp f (quotExp num.natAbs den)
  refine dist_lt_of_grid_or_lt (m := roundedSig f num den) (h.roundedSig_near f hnum) (hstart.trans_le ?_) ?_ hne
  · exact (quotExp_spec (Int.natAbs_ne_zero.mpr hnum) h.odd.pos.ne').1
  · exact hx.imp_right fun hlt => hstart ▸ (abs_lt.mp hlt).2

/-- The rounded pattern of a quotient other than 0 is strictly nearest. For a negative quotient both sides are mirrored. -/
theorem IsMapQuotient.encRne_isNearest_of_ne (f : Prec) (hnum : num ≠ 0) :
    IsNearest f ((num : ℚ) / den) (encRne f num den) := by
  obtain ⟨hnormal, hvalue⟩ := h.encRne_normal f hnum
  refine ⟨hnormal.1, fun c _ hne => ?_⟩
  have hgrid := floatValue_on_grid_or_lt f (quotExp num.natAbs den) c
  rw [hvalue] at hne ⊢
  rcases lt_or_gt_of_ne hnum with hneg | hpos
  · rw [if_pos hneg, neg_one_mul] at hne ⊢
    have hq : (num : ℚ) / den = -(num.natAbs / den) := by
      rw [Nat.cast_natAbs, abs_of_neg hneg, Int.cast_neg, neg_div, neg_neg]
    have hgrid' : (∃ z : Int, -floatValue f c = z * ulp f (quotExp num.natAbs den)) ∨
        |-floatValue f c| < 2 ^ quotExp num.natAbs den := by
      rw [abs_neg]
      exact hgrid.imp_left fun ⟨z, hz⟩ => ⟨-z, by rw [hz, Int.cast_neg, neg_mul]⟩
    have hmirror := h.roundedSig_dist_lt f hnum hgrid' fun heq => hne (neg_eq_iff_eq_neg.mp heq)
    rw [hq, ← abs_neg, ← abs_neg (floatValue f c - _)]
    convert hmirror using 2 <;> ring
  · rw [if_neg hpos.not_gt, one_mul] at hne ⊢
    have hq : (num : ℚ) / den = num.natAbs / den := by
      rw [Nat.cast_natAbs, abs_of_pos hpos]
    rw [hq]
    exact h.roundedSig_dist_lt f hnum hgrid hne

/-- A zero quotient has the value 0, which is the pattern's. -/
theorem IsMapQuotient.encRne_isNearest (f : Prec) : IsNearest f ((num : ℚ) / den) (encRne f num den) := by
  by_cases hnum : num = 0
  · rw [encRne, if_pos hnum, hnum, Int.cast_zero, zero_div]
    refine ⟨by cases f <;> decide, fun c _ hne => ?_⟩
    rw [floatValue_zero] at hne ⊢
    simpa using hne
  · exact h.encRne_isNearest_of_ne f hnum

theorem IsMapQuotient.encRne_eq_zero_iff (f : Prec) : encRne f num den = 0 ↔ num = 0 := by
  refine ⟨fun hzero => by_contra fun hnum => ?_, fun hnum => by rw [encRne, if_pos hnum]⟩
  obtain ⟨⟨-, hbiased⟩, -⟩ := h.encRne_normal f hnum
  exact hbiased (by rw [hzero]; cases f <;> rfl)

theorem IsMapQuotient.encRne_zero_or_normal (f : Prec) : encRne f num den = 0 ∨ FloatNormal f (encRne f num den) := by
  by_cases hnum : num = 0
  · exact .inl ((h.encRne_eq_zero_iff f).mpr hnum)
  · exact .inr (h.encRne_normal f hnum).1

end

end Sys2Proof.Machine
end

section
/-! Proofs of the statements about the two conversions (R160 to R165). The rounded value is strictly nearest to its quotient
under every reading of `NEG_MAP`; the ranges and the monotonicity of R163 follow from that and from the end points. -/

namespace Sys2Proof.Machine

open Sys2Proof.Reference

/-! ### The two conversions (R160, R161) -/

theorem isMapQuotient_uint (n : Word) : IsMapQuotient (uint n) unsignedMax :=
  ⟨by decide, by decide, by have := n.isLt; simp only [uint, unsignedMax]; omega⟩

theorem negNum_eq_negNumRef (m : NegMap) (n : Word) : negNum m n = negNumRef m n := by
  cases m with
  | folded => simp only [negNum, negNumRef, uint, signedMax, unsignedMax]; split_ifs <;> omega
  | literal => rfl
  | signed => rfl

theorem negNumRef_folded_bounds (n : Word) : -2147483647 ≤ negNumRef .folded n ∧ negNumRef .folded n ≤ 2147483647 := by
  have := n.isLt
  simp only [negNumRef]
  split_ifs <;> omega

theorem negNumRef_literal_bounds (n : Word) : -4294967295 ≤ negNumRef .literal n ∧ negNumRef .literal n ≤ 0 := by
  have := n.isLt
  simp only [negNumRef]
  omega

theorem isMapQuotient_negNum (m : NegMap) (n : Word) : IsMapQuotient (negNum m n) signedMax := by
  have hbounds : -4294967295 ≤ negNumRef m n ∧ negNumRef m n ≤ 4294967295 := by
    cases m with
    | folded => exact (negNumRef_folded_bounds n).imp (by omega) (by omega)
    | literal => exact (negNumRef_literal_bounds n).imp_right (by omega)
    | signed => exact (sint32_bounds n).imp (le_trans (by decide)) (le_trans · (by decide))
  rw [negNum_eq_negNumRef]
  exact ⟨by decide, by decide, by unfold signedMax; omega⟩

theorem zeroOneQuot_eq (n : Word) : zeroOneQuot n = (uint n : ℚ) / unsignedMax := by
  simp [zeroOneQuot, uint, unsignedMax]

theorem negOneQuot_eq (m : NegMap) (n : Word) : negOneQuot m n = (negNum m n : ℚ) / signedMax := by
  simp [negOneQuot, negNum_eq_negNumRef, signedMax]

theorem toZeroOne_isNearest (f : Prec) (n : Word) : IsNearest f (zeroOneQuot n) (toZeroOne f n) :=
  zeroOneQuot_eq n ▸ (isMapQuotient_uint n).encRne_isNearest f

theorem toNegOne_isNearest (m : NegMap) (f : Prec) (n : Word) : IsNearest f (negOneQuot m n) (toNegOne m f n) :=
  negOneQuot_eq m n ▸ (isMapQuotient_negNum m n).encRne_isNearest f

theorem toZeroOne_eq_zero_iff (f : Prec) (n : Word) : toZeroOne f n = 0 ↔ n = 0#32 := by
  rw [toZeroOne, (isMapQuotient_uint n).encRne_eq_zero_iff f, uint, Int.natCast_eq_zero]
  exact BitVec.toNat_inj (y := 0#32)

theorem toNegOne_eq_zero_iff (m : NegMap) (f : Prec) (n : Word) : toNegOne m f n = 0 ↔ negNumRef m n = 0 := by
  rw [toNegOne, (isMapQuotient_negNum m n).encRne_eq_zero_iff f, negNum_eq_negNumRef]

/-- Settles O32: the rounded pattern is nearest, and only the word 0 has a zero quotient. -/
theorem zeroOneIsCorrectlyRounded : Obligations.ZeroOneIsCorrectlyRounded := by
  intro f n
  refine ⟨toZeroOne_isNearest f n, fun hzero => (toZeroOne_eq_zero_iff f n).mpr (BitVec.eq_of_toNat_eq ?_)⟩
  simpa [zeroOneQuot] using hzero

/-- Settles O33: the rounded pattern is nearest, and a zero quotient is one of a zero numerator. -/
theorem negOneIsCorrectlyRounded : Obligations.NegOneIsCorrectlyRounded := by
  intro m f n
  refine ⟨toNegOne_isNearest m f n, fun hzero => (toNegOne_eq_zero_iff m f n).mpr ?_⟩
  simpa [negOneQuot] using hzero

/-- Settles O34: both conversions round a quotient with an odd divisor and a magnitude in the formats' normal range. -/
theorem floatResultsAreNormalOrPlusZero : Obligations.FloatResultsAreNormalOrPlusZero := fun m f n =>
  ⟨(isMapQuotient_uint n).encRne_zero_or_normal f, toZeroOne_eq_zero_iff f n,
    (isMapQuotient_negNum m n).encRne_zero_or_normal f, toNegOne_eq_zero_iff m f n⟩

/-! ### Ranges and monotonicity (R163) -/

/-- Settles O38: the quotient grows with the noise value, and rounding to nearest keeps the order. -/
theorem zeroOneIsMonotone : Obligations.ZeroOneIsMonotone := by
  intro f n n' hle
  refine floatValue_le_of_isNearest (toZeroOne_isNearest f n) (toZeroOne_isNearest f n') ?_
  unfold zeroOneQuot
  gcongr

/-- A larger numerator never gives a smaller result. -/
theorem floatValue_toNegOne_mono (m : NegMap) (f : Prec) {n n' : Word} (hle : negNumRef m n ≤ negNumRef m n') :
    floatValue f (toNegOne m f n) ≤ floatValue f (toNegOne m f n') := by
  refine floatValue_le_of_isNearest (toNegOne_isNearest m f n) (toNegOne_isNearest m f n') ?_
  unfold negOneQuot
  gcongr

theorem toZeroOne_max (f : Prec) : toZeroOne f 0xFFFFFFFF#32 = onePattern f false := by
  cases f <;> decide

theorem toNegOne_folded_max (f : Prec) : toNegOne .folded f 0x7FFFFFFF#32 = onePattern f false := by
  cases f <;> decide

theorem toNegOne_folded_min (f : Prec) : toNegOne .folded f 0x80000000#32 = onePattern f true := by
  cases f <;> decide

/-- Settles O35: the results at the two ends of the words bound all others. -/
theorem zeroOneStaysInRange : Obligations.ZeroOneStaysInRange := by
  intro f
  have hmax : floatValue f (toZeroOne f 0xFFFFFFFF#32) = 1 := by simp [toZeroOne_max]
  have hmin : toZeroOne f 0#32 = 0 := (toZeroOne_eq_zero_iff f 0#32).mpr rfl
  refine ⟨fun n => ⟨?_, ?_⟩, hmin, hmax⟩
  · rw [← floatValue_zero f, ← hmin]
    exact zeroOneIsMonotone f 0#32 n n.toNat.zero_le
  · rw [← hmax]
    exact zeroOneIsMonotone f n 0xFFFFFFFF#32 (Nat.le_of_lt_succ n.isLt)

/-- Settles O36: the results at the two words with the extreme numerators bound all others. -/
theorem negOneFoldedStaysInRange : Obligations.NegOneFoldedStaysInRange := by
  intro f
  have hmax : floatValue f (toNegOne .folded f 0x7FFFFFFF#32) = 1 := by simp [toNegOne_folded_max]
  have hmin : floatValue f (toNegOne .folded f 0x80000000#32) = -1 := by simp [toNegOne_folded_min]
  have hzero (n : Word) (h : negNumRef .folded n = 0) := (toNegOne_eq_zero_iff .folded f n).mpr h
  refine ⟨fun n => ⟨?_, ?_⟩, hmax, hmin, hzero 0#32 rfl, hzero 0xFFFFFFFF#32 rfl⟩
  · rw [← hmin]
    exact floatValue_toNegOne_mono .folded f (negNumRef_folded_bounds n).1
  · rw [← hmax]
    exact floatValue_toNegOne_mono .folded f (negNumRef_folded_bounds n).2

/-- Settles O37: under each reading the results at the words with the extreme numerators, evaluated, bound all others. -/
theorem otherReadingsLeaveTheRange : Obligations.OtherReadingsLeaveTheRange := by
  have hsigned64 : toNegOne .signed .binary64 0x80000000#32 = packFloat .binary64 true 1023 0x200000 := by decide
  have hsignedMin : toNegOne .signed .binary32 0x80000000#32 = onePattern .binary32 true := by decide
  have hsignedMax : toNegOne .signed .binary32 0x7FFFFFFF#32 = onePattern .binary32 false := by decide
  have hliteral64 : toNegOne .literal .binary64 0#32 = packFloat .binary64 true 1024 0x100000 := by decide
  have hliteral32 : toNegOne .literal .binary32 0#32 = packFloat .binary32 true 128 0 := by decide
  refine ⟨hsigned64, hsignedMin, ?_, fun n => ⟨?_, ?_⟩, fun f n => ⟨?_, ?_⟩, hliteral64⟩
  · rw [hsigned64, floatValue_packFloat _ _ (by decide) (by decide) (by decide)]
    norm_num [ulp, floatBias, floatSig]
  · calc (-1 : ℚ) = floatValue .binary32 (toNegOne .signed .binary32 0x80000000#32) := by simp [hsignedMin]
      _ ≤ _ := floatValue_toNegOne_mono .signed .binary32 n.le_toInt
  · calc floatValue .binary32 (toNegOne .signed .binary32 n)
        ≤ floatValue .binary32 (toNegOne .signed .binary32 0x7FFFFFFF#32) :=
          floatValue_toNegOne_mono .signed .binary32 (sint32_bounds n).2
      _ = 1 := by simp [hsignedMax]
  · refine le_trans ?_ (floatValue_toNegOne_mono .literal f (n := 0#32) (negNumRef_literal_bounds n).1)
    cases f with
    | binary64 =>
      rw [hliteral64, floatValue_packFloat _ _ (by decide) (by decide) (by decide)]
      norm_num [ulp, floatBias, floatSig]
    | binary32 =>
      rw [hliteral32, floatValue_packFloat _ _ (by decide) (by decide) (by decide)]
      norm_num [ulp, floatBias, floatSig]
  · have hmax : toNegOne .literal f 0xFFFFFFFF#32 = 0 := (toNegOne_eq_zero_iff .literal f _).mpr rfl
    rw [← floatValue_zero f, ← hmax]
    exact floatValue_toNegOne_mono .literal f (negNumRef_literal_bounds n).2

/-- Settles O39: the model evaluates to each of the six patterns. -/
theorem singleRoundingCornerCases : Obligations.SingleRoundingCornerCases := by
  unfold Obligations.SingleRoundingCornerCases
  decide

end Sys2Proof.Machine
end

section
/-! Proofs of the statements about errors and stops (R200 to R202, R233): what a legal and an illegal command answer, and
which levels at the inputs stop the run. A step stops for an unknown level, or else for an offer that is not held, and
otherwise has a next state. -/

namespace Sys2Proof.Machine

open Sys2Proof.Reference

variable {s : State}

/-! ### Legal and illegal commands (R200, R201) -/

/-- Settles O19: a legal `cmd` decodes to a command, and every command answers with `err = 0`. -/
theorem legalCommandsNeverFail : Obligations.LegalCommandsNeverFail := by
  intro r s hlegal
  obtain ⟨i, hdecode⟩ := (exists_instr_iff_legal r).mpr hlegal
  obtain ⟨d, hd⟩ := exec_answers i
  refine ⟨d s.params.negMap, ?_⟩
  simp only [execRequest, hdecode, hd]
  rfl

theorem execRequest_of_not_legal {r : Request} (hillegal : legal r.cmd = false) (s : State) :
    execRequest r s = .next s.raiseIllegalCommand := by
  obtain ⟨why, hdecode⟩ := (exists_illegal_iff_not_legal r).mpr hillegal
  simp only [execRequest, hdecode]

/-- R34: an edge that accepts a request executes it after the delivery and the ages. -/
theorem step_of_accepted {r : Request} {take : Bool}
    (hpins : s.pinsNow = { rst := false, reqValid := some true, req := some r, rspReady := some take })
    (hwaiting : s.waiting = none ∨ s.waiting = some (some r)) (hroom : s.q.length < s.params.maxInflight) :
    step s = execRequest r ((s.beforeAccept take).takeRequest r) := by
  have hheld : s.offerHeld (some (some r)) = true := by
    rcases hwaiting with h | h <;> simp [State.offerHeld, h]
  rw [step_of_known_levels hpins hheld]
  exact if_pos (s.reqReady_iff.mpr hroom)

/-- Settles O5: the accepted request raises `IllegalCommand` in the state that the delivery and the ages leave. -/
theorem illegalRequestTakesItsPlace : Obligations.IllegalRequestTakesItsPlace := by
  intro s r take hpins hwaiting hroom hillegal
  refine ⟨((s.beforeAccept take).takeRequest r).raiseIllegalCommand, ?_, by simp, by simp, ?_⟩
  · rw [step_of_accepted hpins hwaiting hroom, execRequest_of_not_legal hillegal]
  · rw [State.raiseIllegalCommand_q, State.takeRequest_q, State.beforeAccept_q]
    rfl

/-! ### What the levels at the inputs offer (R202, R233) -/

/-- R202: an edge is one of unknown levels when `rst = 0` and some level is unknown (log entry 7). -/
theorem samplePins_eq_unknown_iff (p : Pins) :
    samplePins p = .unknown ↔ p.rst = false ∧ (p.reqValid = none ∨ p.req = none ∨ p.rspReady = none) := by
  fun_cases samplePins p <;> simp [*]

/-- The levels that stop no run by themselves. -/
theorem samplePins_ne_unknown_iff (p : Pins) :
    samplePins p ≠ .unknown ↔
      p.rst = true ∨ ((∃ v, p.reqValid = some v) ∧ (∃ r, p.req = some r) ∧ ∃ v, p.rspReady = some v) := by
  simp only [ne_eq, samplePins_eq_unknown_iff, not_and_or, not_or, Bool.not_eq_false, Option.ne_none_iff_exists']

theorem offerOf_eq_some_iff {α : Type} (valid : Bool) (fields a : α) :
    offerOf valid fields = some a ↔ valid = true ∧ fields = a := by
  cases valid <;> simp [offerOf]

/-- While `rst = 1`, what is offered is what stands at `req_*` while `req_valid = 1`, known or unknown. -/
theorem offer_eq_some_iff_of_resetting {p : Pins} {offer : Option Offer} (hpins : samplePins p = .resetting offer)
    (o : Offer) : offer = some o ↔ p.reqValid = some true ∧ p.req = o := by
  revert hpins
  fun_cases samplePins p with
  | case1 _ valid hvalid =>
    rintro ⟨rfl⟩
    simp [hvalid, offerOf_eq_some_iff]
  | case2 _ hvalid =>
    rintro ⟨rfl⟩
    simp [hvalid]
  | _ => exact nofun

/-- While `rst = 0`, what is offered is the known request that stands at `req_*` while `req_valid = 1`. -/
theorem offer_eq_some_iff_of_running {p : Pins} {offer : Option Request} {take : Bool}
    (hpins : samplePins p = .running offer take) (o : Offer) :
    offer.map some = some o ↔ p.reqValid = some true ∧ p.req = o := by
  revert hpins
  fun_cases samplePins p with
  | case3 _ valid r _ _ hreq hvalid =>
    rintro ⟨rfl⟩
    simp [hvalid, hreq, offerOf_eq_some_iff]
  | _ => exact nofun

theorem offerHeld_iff_held {offer : Option Offer}
    (hoffer : ∀ o, offer = some o ↔ s.pinsNow.reqValid = some true ∧ s.pinsNow.req = o) :
    s.offerHeld offer = true ↔ Held s := by
  simp only [s.offerHeld_iff, hoffer, Held]

/-! ### When a step stops (R202, R233) -/

theorem exists_runEdge_eq_next (offer : Option Request) (take : Bool) (s : State) :
    ∃ t, runEdge offer take s = .next t := by
  rcases runEdge_cases offer take s with ⟨_, _, -, -, -, hedge⟩ | ⟨-, hedge⟩ <;> exact ⟨_, hedge⟩

/-- Without an unknown level, a step has a next state or stops, by whether the request channel is held. -/
theorem step_by_held (hknown : samplePins s.pinsNow ≠ .unknown) :
    (Held s → ∃ t, step s = .next t) ∧ (¬ Held s → step s = .fault .protocolViolation) := by
  cases hpins : samplePins s.pinsNow with
  | unknown => exact absurd hpins hknown
  | resetting offer =>
    rw [step_of_resetting hpins, ← offerHeld_iff_held (offer_eq_some_iff_of_resetting hpins)]
    exact ⟨fun hheld => ⟨_, if_pos hheld⟩, fun hheld => if_neg hheld⟩
  | running offer take =>
    rw [step_of_running hpins, ← offerHeld_iff_held (offer_eq_some_iff_of_running hpins)]
    refine ⟨fun hheld => ?_, fun hheld => if_neg hheld⟩
    rw [if_pos hheld]
    exact exists_runEdge_eq_next offer take s

/-- Settles O46: a requester that drops or changes what waits does not hold the request channel. -/
theorem protocolViolationStopsTheRun : Obligations.ProtocolViolationStopsTheRun := by
  constructor
  · intro s o r valid take hwaiting hpins hbroken
    have hknown : samplePins s.pinsNow ≠ .unknown := by simp [samplePins_eq_unknown_iff, hpins]
    refine (step_by_held hknown).2 fun hheld => ?_
    obtain ⟨hvalid, hreq⟩ := hheld o hwaiting
    rw [hpins] at hvalid hreq
    rcases hbroken with rfl | hchanged
    · simp at hvalid
    · exact hchanged hreq.symm
  · intro s hrst hunknown
    exact step_of_unknown ((samplePins_eq_unknown_iff _).mpr ⟨hrst, hunknown⟩)

/-- Settles O47: with `rst = 1` no level counts as unknown, and the request channel is not held. -/
theorem changedOfferUnderResetStopsTheRun : Obligations.ChangedOfferUnderResetStopsTheRun := by
  intro s o hwaiting hrst hbroken
  have hknown : samplePins s.pinsNow ≠ .unknown := by simp [samplePins_eq_unknown_iff, hrst]
  refine (step_by_held hknown).2 fun hheld => ?_
  obtain ⟨hvalid, hreq⟩ := hheld o hwaiting
  exact hbroken.elim (· hvalid) (· hreq)

/-- Settles O48: a step stops for an unknown level, or else for a request channel that is not held. -/
theorem onlyTheRequesterCanStopTheBlock : Obligations.OnlyTheRequesterCanStopTheBlock := by
  intro s
  rw [← samplePins_ne_unknown_iff]
  by_cases hunknown : samplePins s.pinsNow = .unknown
  · simp [step_of_unknown hunknown, hunknown]
  · obtain ⟨hnext, hstop⟩ := step_by_held hunknown
    by_cases hheld : Held s
    · obtain ⟨t, ht⟩ := hnext hheld
      simp [ht, hunknown, hheld]
    · simp [hstop hheld, hheld]

end Sys2Proof.Machine
end

section
/-! Proofs of the statements about reset and about what waits on the request port (R230, R233): a reset edge whose offer is
held empties `Q`, and an offer waits exactly when it was not accepted. -/

namespace Sys2Proof.Machine

open Sys2Proof.Reference

variable {s : State}

/-! ### The edges with `rst = 1` (R230) -/

/-- While `rst = 1` no level counts as unknown, and the edge is one of R230 (log entry 7). -/
theorem exists_samplePins_eq_resetting_iff (p : Pins) : (∃ offer, samplePins p = .resetting offer) ↔ p.rst = true := by
  fun_cases samplePins p <;> simp [*]

theorem step_of_resetting_held {offer : Option Offer} (hpins : samplePins s.pinsNow = .resetting offer)
    (hheld : Held s) : step s = .next (s.resetEdge offer) := by
  rw [step_of_resetting hpins, if_pos ((offerHeld_iff_held (offer_eq_some_iff_of_resetting hpins)).mpr hheld)]

/-- Settles O41: the edge is one of R230, and `rst` masks both outputs. -/
theorem resetEdgeDiscardsEverything : Obligations.ResetEdgeDiscardsEverything := by
  intro s hrst hheld
  obtain ⟨offer, hpins⟩ := (exists_samplePins_eq_resetting_iff s.pinsNow).mpr hrst
  exact ⟨rfl, rfl, s.resetEdge offer, step_of_resetting_held hpins hheld, rfl, rfl⟩

/-! ### What waits after an edge (R27, R233) -/

/-- R34: an edge with `rst = 0` leaves its offer waiting exactly when `Q` is full. -/
theorem runEdge_waiting (valid take : Bool) (r : Request) (s : State) :
    ∃ t, runEdge (offerOf valid r) take s = .next t ∧
      t.waiting = if valid && !s.reqReady then some (some r) else none := by
  rcases runEdge_cases (offerOf valid r) take s with ⟨r', rsp, -, hready, -, hedge⟩ | ⟨hnone, hedge⟩
  case inl => exact ⟨_, hedge, by simp [hready]⟩
  case inr =>
    refine ⟨_, hedge, ?_⟩
    cases valid with
    | false => rfl
    | true =>
      have hfull : s.reqReady = false := by simpa [offerOf] using hnone
      simp [hfull, offerOf]

/-- Settles O45: under `rst` every offer waits, and else what a full `Q` did not accept. -/
theorem unacceptedOfferWaits : Obligations.UnacceptedOfferWaits := by
  intro s rst valid take fields hpins hknown hheld
  cases rst with
  | true =>
    have hsample : samplePins s.pinsNow = .resetting (offerOf valid fields) := by rw [hpins]; rfl
    refine ⟨_, step_of_resetting_held hsample hheld, ?_⟩
    simp [State.outputs, offerOf]
  | false =>
    obtain ⟨r, rfl⟩ : ∃ r, fields = some r := Option.ne_none_iff_exists'.mp (by simpa using hknown)
    rw [step_of_known_levels hpins (offerHeld_of_held hheld (by rw [hpins]) (by rw [hpins]))]
    exact runEdge_waiting valid take r s

end Sys2Proof.Machine
end

section
/-! Proof that the handshakes do not depend on operand values (R236): the outputs `req_ready` and `rsp_valid` and the ages
after an edge are functions of the ages before it, the two parameters and the control inputs. -/

namespace Sys2Proof.Machine

open Sys2Proof.Reference

/-! ### The handshakes as functions of the ages (R34) -/

theorem State.reqReady_eq_ages (s : State) :
    s.reqReady = decide ((s.q.map Entry.age).length < s.params.maxInflight) := by
  rw [List.length_map]
  rfl

theorem State.rspValid_eq_ages (s : State) :
    s.rspValid = (s.q.map Entry.age).head?.any fun age => decide (s.params.latency ≤ age) := by
  cases hq : s.q <;> simp [State.rspValid, hq]

/-- R202, R233: a step with a next state had its request channel held. -/
theorem held_of_step {s t : State} (hstep : step s = .next t) : Held s :=
  ((onlyTheRequesterCanStopTheBlock s).1.mp ⟨t, hstep⟩).2

/-- R34: an edge takes the age of what it delivers, adds 1 to the others and appends the 0 of what it accepts. -/
theorem ages_of_step {s t : State} {valid take : Bool} {r : Request}
    (hpins : s.pinsNow = { rst := false, reqValid := some valid, req := some r, rspReady := some take })
    (hstep : step s = .next t) :
    t.q.map Entry.age =
      (if take && s.rspValid then (s.q.map Entry.age).tail else s.q.map Entry.age).map (· + 1)
        ++ (if valid && s.reqReady then [0] else []) := by
  obtain ⟨t', rsp, hedge, -, hq⟩ := runEdge_queue s valid take r
  have hheld := offerHeld_of_held (held_of_step hstep) (by rw [hpins]) (by rw [hpins])
  obtain rfl : t' = t := by simpa [step_of_known_levels hpins hheld, hedge] using hstep
  rw [hq, List.map_append]
  congr 1
  · split <;> simp [Function.comp_def]
  · split <;> rfl

/-- R230: an edge with `rst = 1` that has a next state leaves `Q` empty. -/
theorem q_eq_nil_of_reset_step {s t : State} (hrst : s.pinsNow.rst = true) (hstep : step s = .next t) : t.q = [] := by
  obtain ⟨-, -, t', hreset, hq, -⟩ := resetEdgeDiscardsEverything s hrst (held_of_step hstep)
  obtain rfl : t' = t := by simpa [hreset] using hstep
  exact hq

/-- Settles O57: under `rst` the outputs are 0 and `Q` is emptied, and else both are read from the ages. -/
theorem timingIgnoresTheData : Obligations.TimingIgnoresTheData := by
  intro s t s' t' rst valid take r r' hlatency hdepth hages hpins hpins' hstep hstep'
  cases rst with
  | true =>
    refine ⟨rfl, rfl, ?_⟩
    rw [q_eq_nil_of_reset_step (by rw [hpins]) hstep, q_eq_nil_of_reset_step (by rw [hpins']) hstep']
  | false =>
    have hready : s.reqReady = s'.reqReady := by rw [s.reqReady_eq_ages, s'.reqReady_eq_ages, hages, hdepth]
    have hvalid : s.rspValid = s'.rspValid := by rw [s.rspValid_eq_ages, s'.rspValid_eq_ages, hages, hlatency]
    refine ⟨hready, hvalid, ?_⟩
    rw [ages_of_step hpins hstep, ages_of_step hpins' hstep', hages, hready, hvalid]

end Sys2Proof.Machine
end

section
/-! Proofs that every accepted request is answered and that a quiet run ends (R237, R238). The entries in `Q` at the start of
a run stay its first ones; at each edge either the first of them is delivered or it was not yet `LATENCY` edges old, and so
the time in which the rest are due gets shorter. -/

namespace Sys2Proof.Machine

variable {s t : State} {n : Nat}

/-! ### Runs over listed levels -/

theorem runSteps_succ_eq_next_iff :
    runSteps (n + 1) s = .next t ↔ ∃ u, step s = .next u ∧ runSteps n u = .next t := by
  simp only [runSteps]
  cases step s <;> simp

/-- The requester's levels at the next `n` edges are listed, and each of them meets `P`. -/
def State.Drives (s : State) (n : Nat) (P : Pins → Prop) : Prop :=
  n ≤ s.pins.length ∧ ∀ p ∈ s.pins.take n, P p

theorem State.Drives.now {P : Pins → Prop} (h : s.Drives (n + 1) P) : P s.pinsNow := by
  obtain ⟨hlen, hall⟩ := h
  cases hpins : s.pins with
  | nil => simp [hpins] at hlen
  | cons p rest => simpa [State.pinsNow, hpins] using hall p (by simp [hpins])

theorem State.Drives.of_step {P : Pins → Prop} (h : s.Drives (n + 1) P) (hstep : step s = .next t) : t.Drives n P := by
  obtain ⟨hlen, hall⟩ := h
  obtain ⟨-, htail, -⟩ := stepFrame s t hstep
  cases hpins : s.pins with
  | nil => simp [hpins] at hlen
  | cons p rest =>
    rw [hpins, List.tail_cons] at htail
    simp only [hpins, List.length_cons, Nat.add_le_add_iff_right, List.take_succ_cons,
      List.forall_mem_cons] at hlen hall
    exact ⟨htail ▸ hlen, htail ▸ hall.2⟩

/-! ### The edges at which responses are taken (R34) -/

theorem rspReady_of_samplePins_running {p : Pins} {offer : Option Request} {take : Bool}
    (h : samplePins p = .running offer take) : p.rspReady = some take := by
  revert h
  fun_cases samplePins p <;> simp [*]

/-- The requester lets the block run and takes the response that is offered. -/
def TakesResponse (p : Pins) : Prop := p.rst = false ∧ p.rspReady = some true

/-- After the delivery and the ages, such an edge at most appends to `Q`, and delivers nothing more. -/
theorem step_extends_beforeAccept (hpins : TakesResponse s.pinsNow) (hstep : step s = .next t) :
    (s.beforeAccept true).q <+: t.q ∧
      ∃ events, t.log = (s.beforeAccept true).log ++ events ∧ deliveries events = [] := by
  obtain ⟨hrst, hready⟩ := hpins
  have htake {offer : Option Request} {take : Bool} (h : samplePins s.pinsNow = .running offer take) : take = true := by
    simpa [hready] using (rspReady_of_samplePins_running h).symm
  rcases step_cases hstep with
    ⟨offer, hsample, -, -⟩ | ⟨r, take, rsp, hsample, -, -, -, rfl⟩ | ⟨offer, take, hsample, -, -, rfl⟩
  case inl => simp [(exists_samplePins_eq_resetting_iff _).mp ⟨offer, hsample⟩] at hrst
  case inr.inl =>
    obtain rfl := htake hsample
    exact ⟨List.prefix_append _ _, [.accept r], rfl, rfl⟩
  case inr.inr =>
    obtain rfl := htake hsample
    exact ⟨List.prefix_rfl, [], (List.append_nil _).symm, rfl⟩

/-! ### Every response in `Q` is delivered in time (R237) -/

/-- The entries `old` are the first ones of `Q`, and `n` edges suffice to deliver them: one for each, after the last that
any of them has to wait for. -/
structure State.DueWithin (s : State) (n : Nat) (old : List Entry) : Prop where
  first : old <+: s.q
  count : old.length ≤ n
  aged  : ∀ e ∈ old, s.params.latency + old.length ≤ e.age + n

/-- All of `Q` is due within the bound of R237. -/
theorem State.dueWithin_latency_add_length (s : State) : s.DueWithin (s.params.latency + s.q.length) s.q where
  first := List.prefix_rfl
  count := Nat.le_add_left _ _
  aged := fun e _ => Nat.le_add_left _ e.age

theorem State.dueWithin_nil (s : State) (n : Nat) : s.DueWithin n [] where
  first := List.nil_prefix
  count := n.zero_le
  aged := nofun

theorem State.dueWithin_map_older {entries : List Entry} (hfirst : entries.map Entry.older <+: s.q)
    (hcount : entries.length ≤ n) (haged : ∀ e ∈ entries, s.params.latency + entries.length ≤ e.age + (n + 1)) :
    s.DueWithin n (entries.map Entry.older) where
  first := hfirst
  count := by rwa [List.length_map]
  aged := by
    rw [List.forall_mem_map, List.length_map]
    intro e he
    rw [Entry.older_age, Nat.add_right_comm]
    exact haged e he

/-- One edge delivers the first of the entries that are due or finds it too young, and those left are due one edge
sooner. -/
theorem State.DueWithin.of_step {e : Entry} {rest : List Entry} (hdue : s.DueWithin (n + 1) (e :: rest))
    (hpins : TakesResponse s.pinsNow) (hstep : step s = .next t) :
    ∃ events left, t.log = s.log ++ events ∧ t.DueWithin n left ∧
      (e :: rest).map Entry.response = deliveries events ++ left.map Entry.response := by
  obtain ⟨hparams, -⟩ := stepFrame s t hstep
  obtain ⟨hfirst, accepted, hlog, haccepted⟩ := step_extends_beforeAccept hpins hstep
  obtain ⟨⟨later, hq⟩, hcount, haged⟩ := hdue
  rw [← hparams] at haged
  rw [s.beforeAccept_log, List.append_assoc, Bool.true_and] at hlog
  rw [s.beforeAccept_q, ← hq, Bool.true_and] at hfirst
  by_cases hvalid : s.rspValid = true
  · rw [if_pos hvalid] at hlog hfirst
    refine ⟨_, _, hlog, State.dueWithin_map_older (entries := rest) ?_ (Nat.le_of_succ_le_succ hcount) ?_, ?_⟩
    · exact ((List.prefix_append _ _).map Entry.older).trans hfirst
    · intro a ha
      exact Nat.le_of_succ_le (haged a (List.mem_cons_of_mem e ha))
    · rw [deliveries_append, haccepted, s.headResponse_of_cons hq.symm]
      simp [deliveries, Event.delivery]
  · rw [if_neg hvalid] at hlog hfirst
    have hyoung : e.age < t.params.latency := by
      rw [hparams]
      by_contra hold
      exact hvalid (s.rspValid_iff.mpr ⟨e, _, hq.symm, Nat.le_of_not_lt hold⟩)
    refine ⟨_, _, hlog, State.dueWithin_map_older (entries := e :: rest) ?_ ?_ haged, ?_⟩
    · exact ((List.prefix_append _ _).map Entry.older).trans hfirst
    · have hage := haged e List.mem_cons_self
      omega
    · rw [deliveries_append, haccepted]
      simp [deliveries]

/-- What is due within the edges of a run is delivered in it, in order and first. -/
theorem State.DueWithin.delivered {due : List Entry} (hdue : s.DueWithin n due) (hpins : s.Drives n TakesResponse)
    (hrun : runSteps n s = .next t) :
    ∃ events, t.log = s.log ++ events ∧ due.map Entry.response <+: deliveries events := by
  induction n generalizing s due with
  | zero =>
    obtain rfl : s = t := by simpa [runSteps] using hrun
    obtain rfl : due = [] := List.eq_nil_of_length_eq_zero (Nat.le_zero.mp hdue.count)
    exact ⟨[], (List.append_nil _).symm, List.nil_prefix⟩
  | succ n ih =>
    obtain ⟨u, hstep, hrest⟩ := runSteps_succ_eq_next_iff.mp hrun
    have hpins' := hpins.of_step hstep
    cases due with
    | nil =>
      obtain ⟨first, hfirst, -⟩ := txnRun_of_step hstep
      obtain ⟨later, hlater, -⟩ := ih (u.dueWithin_nil n) hpins' hrest
      exact ⟨first ++ later, by rw [hlater, hfirst, List.append_assoc], List.nil_prefix⟩
    | cons e rest =>
      obtain ⟨first, left, hfirst, hleft, hresponses⟩ := hdue.of_step hpins.now hstep
      obtain ⟨later, hlater, hdelivered⟩ := ih hleft hpins' hrest
      refine ⟨first ++ later, by rw [hlater, hfirst, List.append_assoc], ?_⟩
      rw [hresponses, deliveries_append]
      exact (List.prefix_append_right_inj _).mpr hdelivered

/-- Settles O55: all of `Q` is due within `LATENCY + length(Q)` edges. -/
theorem everyAcceptedRequestIsAnswered : Obligations.EveryAcceptedRequestIsAnswered := by
  rintro s t n rfl hlisted hlevels hrun
  obtain ⟨events, hlog, hdelivered⟩ := s.dueWithin_latency_add_length.delivered ⟨hlisted, hlevels⟩ hrun
  rw [hlog, List.drop_left]
  exact hdelivered

/-! ### A quiet run ends (R237, R238) -/

/-- The requester takes responses and offers no request. -/
def IsQuiet (p : Pins) : Prop :=
  p.rst = false ∧ p.reqValid = some false ∧ p.req.isSome = true ∧ p.rspReady = some true

theorem IsQuiet.takesResponse {p : Pins} (h : IsQuiet p) : TakesResponse p := by
  obtain ⟨hrst, -, -, hready⟩ := h
  exact ⟨hrst, hready⟩

/-- What the delivery of an edge takes out of `Q` it records. -/
theorem State.beforeAccept_delivers (s : State) (take : Bool) :
    ∃ events, (s.beforeAccept take).log = s.log ++ events ∧
      deliveries events ++ (s.beforeAccept take).responses = s.responses := by
  refine ⟨_, s.beforeAccept_log take, ?_⟩
  rw [s.beforeAccept_responses]
  split
  · next hdeliver =>
    obtain ⟨e, rest, hq, -⟩ := s.rspValid_iff.mp (Bool.and_eq_true_iff.mp hdeliver).2
    simp [deliveries, Event.delivery, State.responses, hq, s.headResponse_of_cons hq]
  · rfl

/-- A quiet edge is the delivery and the ages alone. -/
theorem step_of_isQuiet (hpins : IsQuiet s.pinsNow) (hwaiting : s.waiting = none) :
    step s = .next ((s.beforeAccept true).leaveWaiting none) := by
  obtain ⟨hrst, hvalid, hreq, hready⟩ := hpins
  obtain ⟨r, hr⟩ := Option.isSome_iff_exists.mp hreq
  have hsample : samplePins s.pinsNow = .running none true := by
    simp [samplePins, hrst, hvalid, hr, hready, offerOf]
  rw [step_of_running hsample, if_pos (by simp [State.offerHeld, hwaiting])]
  rfl

/-- A quiet run goes through, and what it takes out of `Q` it delivers, in order. -/
theorem quietRun_delivers (hpins : s.Drives n IsQuiet) (hwaiting : s.waiting = none) :
    ∃ t events, runSteps n s = .next t ∧ t.log = s.log ++ events ∧ deliveries events ++ t.responses = s.responses := by
  induction n generalizing s with
  | zero => exact ⟨s, [], rfl, (List.append_nil _).symm, rfl⟩
  | succ n ih =>
    have hstep := step_of_isQuiet hpins.now hwaiting
    obtain ⟨first, hfirst, hdelivered⟩ := s.beforeAccept_delivers true
    obtain ⟨t, later, hrun, hlater, hrest⟩ := ih (hpins.of_step hstep) rfl
    refine ⟨t, first ++ later, runSteps_succ_eq_next_iff.mpr ⟨_, hstep, hrun⟩, ?_, ?_⟩
    · rw [hlater, State.leaveWaiting_log, hfirst, List.append_assoc]
    · rw [deliveries_append, List.append_assoc, hrest]
      exact hdelivered

/-- Settles O56: the run goes through, and as it delivers all of `Q` in time, nothing is left there. -/
theorem quietRunEnds : Obligations.QuietRunEnds := by
  intro s n hn hlisted hwaiting hlevels
  obtain ⟨t, events, hrun, hlog, hdelivered⟩ := quietRun_delivers ⟨hlisted, hlevels⟩ hwaiting
  have htakes : ∀ p ∈ s.pins.take n, TakesResponse p := fun p hp => IsQuiet.takesResponse (hlevels p hp)
  have hanswered := everyAcceptedRequestIsAnswered s t n hn hlisted htakes hrun
  rw [hlog, List.drop_left] at hanswered
  have hlen := hanswered.length_le
  rw [← hdelivered, List.length_append] at hlen
  have hleft : t.responses = [] := List.eq_nil_of_length_eq_zero (by omega)
  refine ⟨t, hrun, List.map_eq_nil_iff.mp hleft, ?_⟩
  rw [hlog, List.drop_left, ← hdelivered, hleft, List.append_nil]

end Sys2Proof.Machine
end
